-- ==== Sys2Proof/Word.lean ====
section
/-! DEFINITION. The machine word: every register, buffer word and command word has 64 bits
(00_scope.md R12). A word has two readings (R13): `toNat` is the spec's `nat(v)`, and the binary64
value `f64(v)` is read by `Sys2Proof/Machine/Float.lean`. -/

namespace Sys2Proof

/-- The one width of the block: 64 bits, bit 0 the least significant (R12, R13). -/
abbrev Word := BitVec 64

end Sys2Proof
end

