-- ==== Sys2Proof/Config.lean ====
section
/-! DEFINITION. The implementation parameters of 00_scope.md R11 and the values the spec leaves
unspecified. Every operation of the model takes a `Params`; the machine itself runs at
`Config.params`, whose fields are opaque constants, so a claim about the machine holds for every
hardware the spec allows. -/

namespace Sys2Proof

/-- The two complex-transform formulas the parameter `CDFT_FORM` chooses between (R172). -/
inductive CdftForm where
  | reference
  | canonical
deriving DecidableEq, Repr, Inhabited

/-- The parameter `ANGLE` (R11, R119): the default formula of R119, or any other total function of
(k, i, N) to a binary64 word.  Assumption log 8. -/
inductive AngleForm where
  | standard
  | other (f : Nat → Nat → Nat → Word)
deriving Inhabited

/-- The four rounded primitives that can make a NaN (R111, R112, R114; `fsub` is `fadd` of the
negated second argument). -/
inductive FOp where
  | add
  | mul
  | div
  | sqrt
deriving DecidableEq, Repr

/-- One hardware: the parameters of R11 and the free values of R31 and R122.

`AW` is kept as its distance from 6, so that the constraint 6 <= AW <= 32 of R11 holds of every
value of the type. -/
structure Params where
  /-- `AW - 6` (R11, R30).  Log 6. -/
  awOffset : Fin 27
  /-- `CDFT_FORM` (R11, R172).  Log 7. -/
  cdftForm : CdftForm
  /-- `FSIN`, `FCOS`, `FATAN` (R11, R120): total, each a function of its argument alone.  Log 5. -/
  fsin : Word → Word
  fcos : Word → Word
  fatan : Word → Word
  /-- `ANGLE` (R11, R119).  Log 8. -/
  angle : AngleForm
  /-- `BUF_INIT` (R31, R36): what a never-written buffer word reads as, for the content taken at the
  reset with this number and the word with this address.  Log 3. -/
  bufInit : Nat → Nat → Word
  /-- Which NaN a primitive returns (R122), from the primitive and its arguments.  Log 4. -/
  nanChoice : FOp → Word → Word → Word
deriving Inhabited

/-- `AW` (R11): buffer memory holds 2^AW words, and 6 <= AW <= 32. -/
def Params.aw (p : Params) : Nat := 6 + p.awOffset.val

/-- The number of words of buffer memory, 2^AW (R30). -/
def Params.bufWords (p : Params) : Nat := 2 ^ p.aw

/-- `AW - 6` of this hardware; open (R11, D3). -/
opaque Config.awOffset : Fin 27
/-- `CDFT_FORM` of this hardware; open (R11, D21). -/
opaque Config.CDFT_FORM : CdftForm
/-- `FSIN` of this hardware; open (R11, D16). -/
opaque Config.FSIN : Word → Word
/-- `FCOS` of this hardware; open (R11, D16). -/
opaque Config.FCOS : Word → Word
/-- `FATAN` of this hardware; open (R11, D16). -/
opaque Config.FATAN : Word → Word
/-- `ANGLE` of this hardware; open, with the default of R119 among its values (D15). -/
opaque Config.ANGLE : AngleForm
/-- `BUF_INIT` of this hardware, one content for every reset; open (R31, R36, D38). -/
opaque Config.BUF_INIT : Nat → Nat → Word
/-- The NaN words this hardware's primitives return; unspecified (R122, D18). -/
opaque Config.NAN_CHOICE : FOp → Word → Word → Word

/-- The hardware the machine is about: every parameter open. -/
def Config.params : Params where
  awOffset := Config.awOffset
  cdftForm := Config.CDFT_FORM
  fsin := Config.FSIN
  fcos := Config.FCOS
  fatan := Config.FATAN
  angle := Config.ANGLE
  bufInit := Config.BUF_INIT
  nanChoice := Config.NAN_CHOICE

end Sys2Proof
end

