-- ==== Sys2Proof/Syntax.lean ====
section
/-! DEFINITION. The syntax of the block: the fifteen commands (30_encoding.md R73, one constructor
per row of spec/opcode_table.json), the window select (R72), the five host transactions
(40_command_execution.md R90 to R96) and the error causes (60_exceptions.md R211). -/

namespace Sys2Proof

/-- The commands of R73.  A command has no operand fields: every operand is read from a register
(R70, R100). -/
inductive Instr where
  | dft
  | idft
  | cdft
  | r2p
  | lpf
  | lpfBlackman
  | lpfCustom
  | hpf
  | hpfBlackman
  | hpfCustom
  | bpf
  | bpfBlackman
  | bpfCustom
  | winHamming
  | winBlackman
deriving DecidableEq, Repr

/-- The windows a command word can select (R72). -/
inductive WSel where
  | hamming
  | blackman
  | custom
deriving DecidableEq, Repr

/-- The host transactions, the only steps of the machine (R90).  A register number is 0 to 15 (R91,
R92).  A buffer address is a number here; the address port's width is `HostTxn.wf`'s check (R94,
R95). -/
inductive HostTxn where
  | regRead (r : Fin 16)
  | regWrite (r : Fin 16) (v : Word)
  | bufRead (a : Nat)
  | bufWrite (a : Nat) (v : Word)
  | reset
deriving DecidableEq, Repr

/-- The causes a command word can be rejected for (R211), in the order of their codes 1 to 9. -/
inductive Cause where
  | lenZero
  | lenLt2
  | ratioRange
  | cutoffOrder
  | regionBounds
  | regionOverlap
  | badOpcode
  | badWsel
  | reservedBits
deriving DecidableEq, Repr

/-- The error classes of R210. -/
inductive ErrorClass where
  | invalidLength
  | invalidParameter
  | illegalCommand
deriving DecidableEq, Repr

end Sys2Proof
end

