-- ==== Sys2Proof/WellFormed.lean ====
section
/-! DEFINITION. What is well formed: a pair of command fields that names a command (30_encoding.md
R71 to R74; a command is checked through its fields, in Decode.lean), and a host transaction whose buffer address fits the AW-bit address port (R94, R95). -/

namespace Sys2Proof

/-- The operation code names an operation: 1 to 8 (R71). -/
def opcodeKnown (opc : BitVec 4) : Bool := 1 ≤ opc.toNat && opc.toNat ≤ 8

/-- The window select is allowed for the operation code (R73): the transforms and R2P take none, a
filter takes the three windows, WIN the two built-in ones. -/
def windowAllowed (opc : BitVec 4) (wsel : BitVec 2) : Bool :=
  if opc.toNat ≤ 4 then wsel.toNat == 0
  else if opc.toNat ≤ 7 then wsel.toNat ≤ 2
  else wsel.toNat ≤ 1

/-- The pair of fields is one of the fifteen of R73. -/
def fieldsLegal (opc : BitVec 4) (wsel : BitVec 2) : Bool :=
  opcodeKnown opc && windowAllowed opc wsel

/-- A transaction is well formed when its buffer address, if it has one, is an AW-bit address (R94,
R95). -/
def HostTxn.wf (p : Params) : HostTxn → Bool
  | .regRead _ => true
  | .regWrite _ _ => true
  | .bufRead a => a < p.bufWords
  | .bufWrite a _ => a < p.bufWords
  | .reset => true

end Sys2Proof
end

