-- ==== Sys2Proof/Decode.lean ====
section
/-! DEFINITION. Decoding a command word, total on all 2^64 words and rejecting by cause in the order
of 30_encoding.md R74, and the encoder of R70 and R73 after it. -/

namespace Sys2Proof

/-- OPC, bits 3:0 of a command word (R70). -/
def opcField (w : Word) : BitVec 4 := w.extractLsb' 0 4

/-- WSEL, bits 5:4 of a command word (R70). -/
def wselField (w : Word) : BitVec 2 := w.extractLsb' 4 2

/-- Bits 63:6 of a command word, which must be 0 (R70). -/
def zeroField (w : Word) : BitVec 58 := w.extractLsb' 6 58

/-- The command of a pair of fields (R73), `none` for a pair that is not in the table. -/
def commandOf (opc : BitVec 4) (wsel : BitVec 2) : Option Instr :=
  match opc.toNat, wsel.toNat with
  | 1, 0 => some .dft
  | 2, 0 => some .idft
  | 3, 0 => some .cdft
  | 4, 0 => some .r2p
  | 5, 0 => some .lpf
  | 5, 1 => some .lpfBlackman
  | 5, 2 => some .lpfCustom
  | 6, 0 => some .hpf
  | 6, 1 => some .hpfBlackman
  | 6, 2 => some .hpfCustom
  | 7, 0 => some .bpf
  | 7, 1 => some .bpfBlackman
  | 7, 2 => some .bpfCustom
  | 8, 0 => some .winHamming
  | 8, 1 => some .winBlackman
  | _, _ => none

/-- `decode(w)` of R74: reserved bits first, then the operation code, then the window select. -/
def decode (w : Word) : Except Cause Instr :=
  if zeroField w ≠ 0 then .error .reservedBits
  else if (opcField w).toNat = 0 ∨ 9 ≤ (opcField w).toNat then .error .badOpcode
  else
    match commandOf (opcField w) (wselField w) with
    | some i => .ok i
    | none => .error .badWsel

/-- The OPC field of a command (R71, R73). -/
def Instr.opc : Instr → BitVec 4
  | .dft => 1
  | .idft => 2
  | .cdft => 3
  | .r2p => 4
  | .lpf => 5
  | .lpfBlackman => 5
  | .lpfCustom => 5
  | .hpf => 6
  | .hpfBlackman => 6
  | .hpfCustom => 6
  | .bpf => 7
  | .bpfBlackman => 7
  | .bpfCustom => 7
  | .winHamming => 8
  | .winBlackman => 8

/-- The WSEL field of a command (R72, R73). -/
def Instr.wsel : Instr → BitVec 2
  | .dft => 0
  | .idft => 0
  | .cdft => 0
  | .r2p => 0
  | .lpf => 0
  | .lpfBlackman => 1
  | .lpfCustom => 2
  | .hpf => 0
  | .hpfBlackman => 1
  | .hpfCustom => 2
  | .bpf => 0
  | .bpfBlackman => 1
  | .bpfCustom => 2
  | .winHamming => 0
  | .winBlackman => 1

/-- A command is well formed when its fields are legal. -/
def Instr.wf (i : Instr) : Bool := fieldsLegal i.opc i.wsel

/-- The command word of a command: zero ++ WSEL ++ OPC (R70, R73). -/
def encode (i : Instr) : Word := (0#58 ++ i.wsel) ++ i.opc

/-- The instruction the decoder reads from the low `nbits` bits of `w`.  A command is one whole
64-bit word and the block has no byte order (R57, R75), so the number is the command word.  Log 13. -/
def decodeTableWord (nbits w : Nat) : Option Instr :=
  match decode (BitVec.ofNat 64 (w % 2 ^ nbits)) with
  | .ok i => some i
  | .error _ => none

end Sys2Proof
end

