-- ==== Sys2Proof/Machine/Float.lean ====
section
/-! DEFINITION. The arithmetic every command is built from (41_numerics.md): IEEE 754 binary64 with
round to nearest, ties to even, computed exactly on integers and rounded once.

The unit of every exact value here is 2^-1074, the smallest positive binary64 number: a finite word
then has an integer value, and rounding is one function on a quotient of naturals. -/

namespace Sys2Proof.Machine

/-- The sign bit, bit 63 (R57, R110). -/
def signOf (a : Word) : Bool := a.getLsbD 63

/-- The biased exponent, bits 62:52 (R110). -/
def expOf (a : Word) : Nat := (a.extractLsb' 52 11).toNat

/-- The fraction, bits 51:0 (R110). -/
def fracOf (a : Word) : Nat := (a.extractLsb' 0 52).toNat

/-- A NaN word: exponent 2047 and fraction not 0 (R110). -/
def isNaN (a : Word) : Bool := expOf a == 2047 && fracOf a != 0

/-- An infinity: exponent 2047 and fraction 0 (R110). -/
def isInf (a : Word) : Bool := expOf a == 2047 && fracOf a == 0

/-- A finite word: a zero, subnormal or normal number (R110). -/
def isFinite (a : Word) : Bool := expOf a != 2047

/-- One of the two zeros (R110). -/
def isZero (a : Word) : Bool := expOf a == 0 && fracOf a == 0

/-- The absolute value of a finite word in units of 2^-1074 (R110).  On an infinity it is 2^2098,
above that of every finite word (log 20). -/
def magnitude (a : Word) : Nat :=
  if expOf a = 0 then fracOf a else (2 ^ 52 + fracOf a) * 2 ^ (expOf a - 1)

/-- The value of a word in units of 2^-1074; only asked of words that are not NaN (R110). -/
def scaled (a : Word) : Int := if signOf a then -(magnitude a : Int) else (magnitude a : Int)

/-- A word from its sign bit and its low 63 bits. -/
def pack (s : Bool) (bits : Nat) : Word := BitVec.ofNat 64 ((if s then 2 ^ 63 else 0) + bits)

/-- The low 63 bits of an infinity (R110). -/
def infBits : Nat := 2047 * 2 ^ 52

/-- `n / d` rounded to an integer, to nearest, ties to even (R111); `d` positive. -/
def roundHalfEven (n d : Nat) : Nat :=
  if d < 2 * (n % d) ∨ (2 * (n % d) = d ∧ n / d % 2 = 1) then n / d + 1 else n / d

/-- How many binary places above 2^-1074 the last place of a number with integer part `q` lies: 0
for subnormal numbers, and such that 53 bits remain for normal ones (R110). -/
def lastPlace (q : Nat) : Nat := q.log2 - 52

/-- The low 63 bits of the binary64 number nearest to `n / d` units of 2^-1074, ties to even, an
infinity when that is too large (R111); `d` positive.  With `r` the rounded significand and `u` the
last place, the word of `r * 2^u` units is `u * 2^52 + r`, for subnormal and normal numbers alike and
also when `r` has been rounded up to 2^53. -/
def roundBits (n d : Nat) : Nat :=
  let u := lastPlace (n / d)
  min (u * 2 ^ 52 + roundHalfEven n (d * 2 ^ u)) infBits

/-- The NaN a primitive returns: some NaN word, the hardware's choice (R122).  Log 4. -/
def nanResult (p : Params) (op : FOp) (a b : Word) : Word :=
  if isNaN (p.nanChoice op a b) then p.nanChoice op a b else 0x7FF8000000000000#64

/-- `fneg(a)`: bit 63 inverted, every other bit as it was (R113). -/
def fneg (a : Word) : Word := a ^^^ 0x8000000000000000#64

/-- `fadd(a,b)` (R111, R112). -/
def fadd (p : Params) (a b : Word) : Word :=
  if isNaN a || isNaN b then nanResult p .add a b
  else if isInf a then
    if isInf b && signOf a != signOf b then nanResult p .add a b else a
  else if isInf b then b
  else if scaled a + scaled b = 0 then pack (signOf a && signOf b) 0
  else pack (decide (scaled a + scaled b < 0)) (roundBits (scaled a + scaled b).natAbs 1)

/-- `fsub(a,b)` is `fadd(a, fneg(b))` in every case (R112). -/
def fsub (p : Params) (a b : Word) : Word := fadd p a (fneg b)

/-- `fmul(a,b)` (R111, R112). -/
def fmul (p : Params) (a b : Word) : Word :=
  if isNaN a || isNaN b then nanResult p .mul a b
  else if (isInf a && isZero b) || (isZero a && isInf b) then nanResult p .mul a b
  else if isInf a || isInf b then pack (signOf a != signOf b) infBits
  else pack (signOf a != signOf b) (roundBits (magnitude a * magnitude b) (2 ^ 1074))

/-- `fdiv(a,b)` (R111, R112). -/
def fdiv (p : Params) (a b : Word) : Word :=
  if isNaN a || isNaN b then nanResult p .div a b
  else if (isInf a && isInf b) || (isZero a && isZero b) then nanResult p .div a b
  else if isInf a || isZero b then pack (signOf a != signOf b) infBits
  else if isInf b then pack (signOf a != signOf b) 0
  else pack (signOf a != signOf b) (roundBits (magnitude a * 2 ^ 1074) (magnitude b))

/-- The integer square root of `y`, found bit by bit from bit `k - 1` down, with `q` the bits found
so far. -/
def isqrtFrom (y : Nat) : Nat → Nat → Nat
  | 0, q => q
  | k + 1, q => isqrtFrom y k (if (q + 2 ^ k) * (q + 2 ^ k) ≤ y then q + 2 ^ k else q)

/-- The low 63 bits of the binary64 number nearest to the square root of `m` units of 2^-1074, `m`
positive (R114): with `x = m * 2^1074` the root is the square root of `x` units, `u` its last place
and `q` its first 53 bits; it is rounded up when it lies above (or, with `q` odd, on) the middle
between `q` and `q + 1` last places. -/
def sqrtBits (m : Nat) : Nat :=
  let x := m * 2 ^ 1074
  let u := x.log2 / 2 - 52
  let q := isqrtFrom (x / 4 ^ u) 53 0
  let middle := (2 * q + 1) * (2 * q + 1) * 4 ^ u
  u * 2 ^ 52 + (if middle < 4 * x ∨ (middle = 4 * x ∧ q % 2 = 1) then q + 1 else q)

/-- `fsqrt(a)` (R114).  A NaN it returns is chosen from the argument given twice. -/
def fsqrt (p : Params) (a : Word) : Word :=
  if isNaN a then nanResult p .sqrt a a
  else if isZero a then a
  else if signOf a then nanResult p .sqrt a a
  else if isInf a then a
  else pack false (sqrtBits (magnitude a))

/-- `flt(a,b)`: the value of a is less than the value of b; false for a NaN (R115). -/
def flt (a b : Word) : Bool := !isNaN a && !isNaN b && decide (scaled a < scaled b)

/-- `fge(a,b)`: the value of a is greater than or equal to the value of b; false for a NaN (R115). -/
def fge (a b : Word) : Bool := !isNaN a && !isNaN b && decide (scaled b ≤ scaled a)

/-- `feq(a,b)`: the values are equal, so the two zeros are; false for a NaN (R115). -/
def feq (a b : Word) : Bool := !isNaN a && !isNaN b && decide (scaled a = scaled b)

/-- `i2f(n)`: the binary64 value equal to the integer n, exact for magnitudes up to 2^53, the only
ones the commands use (R116).  Log 14. -/
def i2f (n : Int) : Word := pack (decide (n < 0)) (roundBits (n.natAbs * 2 ^ 1074) 1)

/-! The constants of R117. -/

/-- +0, the accumulators' start. -/
def ZERO : Word := 0x0000000000000000#64
/-- 1, the unit impulse. -/
def ONE : Word := 0x3FF0000000000000#64
/-- 0.5. -/
def HALF : Word := 0x3FE0000000000000#64
/-- The binary64 nearest π. -/
def PI : Word := 0x400921FB54442D18#64
/-- The binary64 nearest 2π. -/
def TWO_PI : Word := 0x401921FB54442D18#64
/-- The binary64 nearest 4π. -/
def FOUR_PI : Word := 0x402921FB54442D18#64
/-- The binary64 nearest 10^-20. -/
def TINY : Word := 0x3BC79CA10C924223#64
/-- 0.54. -/
def C054 : Word := 0x3FE147AE147AE148#64
/-- 0.46. -/
def C046 : Word := 0x3FDD70A3D70A3D71#64
/-- 0.42. -/
def C042 : Word := 0x3FDAE147AE147AE1#64
/-- 0.08. -/
def C008 : Word := 0x3FB47AE147AE147B#64

/-- `ANGLE(k, i, N)` (R119): the default formula 2π·k·i/N, left to right, or the parameter's own
function. -/
def angleOf (p : Params) (k i n : Nat) : Word :=
  match p.angle with
  | .standard => fdiv p (fmul p (fmul p TWO_PI (i2f k)) (i2f i)) (i2f n)
  | .other f => f k i n

end Sys2Proof.Machine
end

