-- ==== Sys2Proof/Machine/Flags.lean ====
section
/-! DEFINITION. The flags: the fields of STATUS (10_state.md R22), the class and code of each cause
(60_exceptions.md R210, R211), the STATUS words a command's end leaves (40_command_execution.md R97,
60_exceptions.md R215), and the constant CAP word (R26). -/

namespace Sys2Proof.Machine

/-- The class of a cause (R211). -/
def errorClass : Cause → ErrorClass
  | .lenZero => .invalidLength
  | .lenLt2 => .invalidLength
  | .ratioRange => .invalidParameter
  | .cutoffOrder => .invalidParameter
  | .regionBounds => .invalidParameter
  | .regionOverlap => .invalidParameter
  | .badOpcode => .illegalCommand
  | .badWsel => .illegalCommand
  | .reservedBits => .illegalCommand

/-- ECLASS, STATUS bits 3:2, of a class (R22, R211); 0 is kept for an accepted command. -/
def eclassCode : ErrorClass → BitVec 2
  | .invalidLength => 1
  | .invalidParameter => 2
  | .illegalCommand => 3

/-- ECAUSE, STATUS bits 7:4, of a cause (R22, R211); 0 is kept for an accepted command. -/
def ecauseCode : Cause → BitVec 4
  | .lenZero => 1
  | .lenLt2 => 2
  | .ratioRange => 3
  | .cutoffOrder => 4
  | .regionBounds => 5
  | .regionOverlap => 6
  | .badOpcode => 7
  | .badWsel => 8
  | .reservedBits => 9

/-- A STATUS word from its fields, bits 63:8 zero (R22). -/
def statusWord (ecause : BitVec 4) (eclass : BitVec 2) (evenm done : Bool) : Word :=
  (((0#56 ++ ecause) ++ eclass) ++ BitVec.ofBool evenm) ++ BitVec.ofBool done

/-- STATUS after an accepted command: DONE, and EVENM as the command says (R22, R97 phase 9). -/
def acceptedStatus (evenm : Bool) : Word := statusWord 0 0 evenm true

/-- STATUS after a rejection: DONE, EVENM clear, the class and the cause (R97, R215). -/
def rejectedStatus (c : Cause) : Word :=
  statusWord (ecauseCode c) (eclassCode (errorClass c)) false true

/-- STATUS.DONE, bit 0 (R22). -/
def statusDone (w : Word) : Bool := w.getLsbD 0

/-- STATUS.EVENM, bit 1 (R22). -/
def statusEvenM (w : Word) : Bool := w.getLsbD 1

/-- STATUS.ECLASS, bits 3:2 (R22). -/
def statusEClass (w : Word) : BitVec 2 := w.extractLsb' 2 2

/-- STATUS.ECAUSE, bits 7:4 (R22). -/
def statusECause (w : Word) : BitVec 4 := w.extractLsb' 4 4

/-- Evenness of a kernel length, `M div 2 * 2 = M` (R123). -/
def isEven (m : Nat) : Bool := m / 2 * 2 == m

/-- The CAP word: AW in bits 7:0, CDFT_FORM in bit 8, the rest 0 (R26). -/
def capWord (p : Params) : Word :=
  (0#55 ++ (match p.cdftForm with | .reference => 0#1 | .canonical => 1#1)) ++ BitVec.ofNat 8 p.aw

end Sys2Proof.Machine
end

