-- ==== Sys2Proof/Machine/State.lean ====
section
/-! DEFINITION. The state of the block (10_state.md R20), its reset value (R36), and the reasons a
step can stop. -/

namespace Sys2Proof.Machine

/-- Buffer memory (R30): the words that do not hold what a never-written word reads as, in strictly
rising order of their word addresses, and the number of resets so far, which tells which `BUF_INIT`
content the other words have (R31, R36).  The cell is the smallest addressable unit, a 64-bit word
(R52, R57; log 2); `resets` is the model's own field (log 3). -/
structure Memory where
  resets : Nat
  cells : List (Nat × Word)
deriving DecidableEq, Repr

/-- The state: eleven of the twelve registers of R20, buffer memory, and two fields of the host's
side.  CAP, the twelfth register, is constant for the life of the hardware (R26) and is computed by
the one operation that reads registers (log 10).

`script` holds the host transactions still to be performed and `returned` the words the read
transactions have returned, oldest first (R35, R80, R107); both are the model's own (log 1). -/
structure State where
  cmd : Word
  status : Word
  len : Word
  src0 : Word
  src1 : Word
  dst0 : Word
  dst1 : Word
  wtab : Word
  fs : Word
  fc0 : Word
  fc1 : Word
  mem : Memory
  script : List HostTxn
  returned : List Word
deriving DecidableEq, Repr

/-- Why a step can stop with a fault. -/
inductive Fault where
  /-- Raised by a BufRead or BufWrite transaction whose address has more than AW bits: no host can
  express it, since the address port is AW bits wide (R94, R95).  Safe: the model stops where no
  hardware goes on.  Log 9. -/
  | hostAddressOutsideBuffer
deriving DecidableEq, Repr

/-- Why a step can refuse. -/
inductive Refusal where
  /-- Raised by an arm of `exec` whose command has no meaning yet; no arm raises it now.  Safe. -/
  | notModelled (mnemonic : String)
deriving DecidableEq, Repr

/-- The state right after reset, which is also the power-up state (R36, R240): every register 0 and
no buffer word listed.  The host has not presented any transaction yet. -/
def State.reset : State where
  cmd := 0
  status := 0
  len := 0
  src0 := 0
  src1 := 0
  dst0 := 0
  dst1 := 0
  wtab := 0
  fs := 0
  fc0 := 0
  fc1 := 0
  mem := { resets := 0, cells := [] }
  script := []
  returned := []

end Sys2Proof.Machine
end

