-- ==== Sys2Proof/Machine/Ops.lean ====
section
/-! DEFINITION. The named operations over registers and buffer memory: register access (R91, R92),
`MemRead` and `MemWrite` (R50, R51), regions with their checks (R53, R54), `Seq` and `Store` (R16),
error entry (R215), and the phases every command runs in (R97). -/

namespace Sys2Proof.Machine

/-! ### Registers -/

/-- `x[r]` as the host reads it (R20, R91): CAP is its constant, and 12 to 15 read 0 (R27). -/
def readReg (p : Params) (s : State) (r : Fin 16) : Word :=
  match r.val with
  | 0 => s.cmd
  | 1 => s.status
  | 2 => s.len
  | 3 => s.src0
  | 4 => s.src1
  | 5 => s.dst0
  | 6 => s.dst1
  | 7 => s.wtab
  | 8 => s.fs
  | 9 => s.fc0
  | 10 => s.fc1
  | 11 => capWord p
  | _ => 0

/-- `x[r] <- v` for a host write other than to CMD (R92): 2 to 10 store all 64 bits, STATUS, CAP and
the reserved numbers ignore the write.  Number 0 is the command step, not this operation. -/
def writeReg (s : State) (r : Fin 16) (v : Word) : State :=
  match r.val with
  | 2 => { s with len := v }
  | 3 => { s with src0 := v }
  | 4 => { s with src1 := v }
  | 5 => { s with dst0 := v }
  | 6 => { s with dst1 := v }
  | 7 => { s with wtab := v }
  | 8 => { s with fs := v }
  | 9 => { s with fc0 := v }
  | 10 => { s with fc1 := v }
  | _ => s

/-! ### Buffer memory -/

/-- The word listed at an address, if one is. -/
def lookupCell : List (Nat × Word) → Nat → Option Word
  | [], _ => none
  | (b, w) :: rest, a => if a = b then some w else lookupCell rest a

/-- The cells with the word at `a` made `v`, kept in rising order; `u` is what the address reads as
when it is not listed, and the cell is left out when `v` is that word. -/
def setCell (u : Word) (a : Nat) (v : Word) : List (Nat × Word) → List (Nat × Word)
  | [] => if v = u then [] else [(a, v)]
  | (b, w) :: rest =>
    if a < b then (if v = u then (b, w) :: rest else (a, v) :: (b, w) :: rest)
    else if a = b then (if v = u then rest else (a, v) :: rest)
    else (b, w) :: setCell u a v rest

/-- What a never-written word reads as (R31). -/
def unwritten (p : Params) (m : Memory) (a : Nat) : Word := p.bufInit m.resets a

/-- `MemRead(addr, 1)` (R50). -/
def memRead (p : Params) (m : Memory) (a : Nat) : Word :=
  match lookupCell m.cells a with
  | some w => w
  | none => unwritten p m a

/-- `MemWrite(addr, 1, v)` (R51). -/
def memWrite (p : Params) (m : Memory) (a : Nat) (v : Word) : Memory :=
  { m with cells := setCell (unwritten p m a) a v m.cells }

/-- The addresses of a cell list rise strictly, all lie at `low` or above, below `bound`, and no
cell holds what its address would read as unlisted. -/
def cellsOk (init : Nat → Word) (bound : Nat) : Nat → List (Nat × Word) → Bool
  | _, [] => true
  | low, (b, w) :: rest => low ≤ b && b < bound && w != init b && cellsOk init bound (b + 1) rest

/-- The canonical form of buffer memory, so that equal memories are equal data; every listed address
is one of the 2^AW (R30). -/
def Memory.wf (p : Params) (m : Memory) : Bool := cellsOk (unwritten p m) p.bufWords 0 m.cells

/-! ### Regions -/

/-- A run of consecutive buffer words (R16). -/
structure Region where
  base : Nat
  len : Nat
deriving DecidableEq, Repr

/-- The regions of a command (R100), inputs and outputs in the order of the table's row. -/
structure Operands where
  ins : List Region
  outs : List Region
deriving DecidableEq, Repr

/-- A region lies in buffer memory; the sum does not wrap (R53). -/
def inBounds (p : Params) (r : Region) : Bool := r.base + r.len ≤ p.bufWords

/-- Two regions overlap (R54). -/
def overlaps (a b : Region) : Bool :=
  0 < a.len && 0 < b.len && a.base < b.base + b.len && b.base < a.base + a.len

/-- Some two of the regions overlap. -/
def someOverlap : List Region → Bool
  | [] => false
  | r :: rest => rest.any (overlaps r) || someOverlap rest

/-- An output region overlaps an input region or another output region (R54); inputs may overlap
each other. -/
def outputClash (o : Operands) : Bool :=
  o.outs.any (fun r => o.ins.any (overlaps r)) || someOverlap o.outs

/-- `Seq(base, len)` (R16). -/
def readSeq (p : Params) (m : Memory) (r : Region) : List Word :=
  (List.range r.len).map (fun j => memRead p m (r.base + j))

/-- `Store(base, s)` (R16), in ascending order, which no host can observe (R67, R250; log 16). -/
def storeSeq (p : Params) (m : Memory) (base : Nat) : List Word → Memory
  | [] => m
  | v :: rest => storeSeq p (memWrite p m base v) (base + 1) rest

/-- `Store` for every output region (R97 phase 8). -/
def storeAll (p : Params) (m : Memory) : List Region → List (List Word) → Memory
  | r :: regions, out :: outs => storeAll p (storeSeq p m r.base out) regions outs
  | _, _ => m

/-! ### The command step -/

/-- Error entry, the one operation every rejection takes (R215): STATUS records the class and the
cause, and nothing else changes.  There is no return operation: an error is not sticky (R216). -/
def reject (s : State) (c : Cause) : State := { s with status := rejectedStatus c }

/-- `LengthCheck` of the transforms (R101). -/
def transformLengthCheck (s : State) : Option Cause := if s.len.toNat < 2 then some .lenLt2 else none

/-- `LengthCheck` of R2P, the filters and WIN (R101). -/
def positiveLengthCheck (s : State) : Option Cause := if s.len.toNat = 0 then some .lenZero else none

/-- Phase 4 of R97. -/
def boundsCheck (p : Params) (o : Operands) : Option Cause :=
  if (o.ins ++ o.outs).all (inBounds p) then none else some .regionBounds

/-- Phase 5 of R97. -/
def overlapCheck (o : Operands) : Option Cause := if outputClash o then some .regionOverlap else none

/-- The first failure of phases 2 to 5, in their order (R97, R213). -/
def firstFailure (p : Params) (lengthCheck paramCheck : Option Cause) (o : Operands) :
    Option Cause :=
  match lengthCheck with
  | some c => some c
  | none =>
    match paramCheck with
    | some c => some c
    | none =>
      match boundsCheck p o with
      | some c => some c
      | none => overlapCheck o

/-- Phases 8 and 9 of R97: store every output, then record an accepted command. -/
def commit (p : Params) (s : State) (o : Operands) (evenm : Bool) (outs : List (List Word)) : State :=
  { s with mem := storeAll p s.mem o.outs outs, status := acceptedStatus evenm }

/-- Phase 6 of R97: the sequence of every input region. -/
def readInputs (p : Params) (s : State) (o : Operands) : List (List Word) :=
  o.ins.map (readSeq p s.mem)

/-- `issue` after decoding (R97): the checks in order, then read every input region, compute, store
every output region, and record.  Every input is read before any output is written (R55).  CMD already
holds the word. -/
def runPhases (p : Params) (s : State) (lengthCheck paramCheck : Option Cause) (o : Operands)
    (evenm : Bool) (compute : List (List Word) → List (List Word)) : State :=
  match firstFailure p lengthCheck paramCheck o with
  | some c => reject s c
  | none => commit p s o evenm (compute (readInputs p s o))

end Sys2Proof.Machine
end

