-- ==== Sys2Proof/Machine/Operands.lean ====
section
/-! DEFINITION. The operands of each command: which register gives which region, with its length
(40_command_execution.md R100).  A register that is not in a command's row is not read by it. -/

namespace Sys2Proof.Machine

/-- DFT: x; Rex and Imx of K = N div 2 words. -/
def dftOperands (s : State) : Operands where
  ins := [⟨s.src0.toNat, s.len.toNat⟩]
  outs := [⟨s.dst0.toNat, s.len.toNat / 2⟩, ⟨s.dst1.toNat, s.len.toNat / 2⟩]

/-- IDFT: Rex and Imx of K = N div 2 words; x. -/
def idftOperands (s : State) : Operands where
  ins := [⟨s.src0.toNat, s.len.toNat / 2⟩, ⟨s.src1.toNat, s.len.toNat / 2⟩]
  outs := [⟨s.dst0.toNat, s.len.toNat⟩]

/-- CDFT: Rex_in, Imx_in; Rex_out, Imx_out, all of N words. -/
def cdftOperands (s : State) : Operands where
  ins := [⟨s.src0.toNat, s.len.toNat⟩, ⟨s.src1.toNat, s.len.toNat⟩]
  outs := [⟨s.dst0.toNat, s.len.toNat⟩, ⟨s.dst1.toNat, s.len.toNat⟩]

/-- R2P: Rex, Imx; Magnitude, Phase, all of K words. -/
def r2pOperands (s : State) : Operands where
  ins := [⟨s.src0.toNat, s.len.toNat⟩, ⟨s.src1.toNat, s.len.toNat⟩]
  outs := [⟨s.dst0.toNat, s.len.toNat⟩, ⟨s.dst1.toNat, s.len.toNat⟩]

/-- LPF, HPF and BPF: the window table only when WSEL is CUSTOM; the kernel. -/
def filterOperands (wsel : WSel) (s : State) : Operands where
  ins :=
    match wsel with
    | .hamming => []
    | .blackman => []
    | .custom => [⟨s.wtab.toNat, s.len.toNat⟩]
  outs := [⟨s.dst0.toNat, s.len.toNat⟩]

/-- WIN: the table. -/
def winOperands (s : State) : Operands where
  ins := []
  outs := [⟨s.dst0.toNat, s.len.toNat⟩]

end Sys2Proof.Machine
end

