-- ==== Sys2Proof/Machine/ComplexTransform.lean ====
section
/-! DEFINITION. The complex transform (44_complex_transform.md): CDFT, in the form the parameter
`CDFT_FORM` chooses. -/

namespace Sys2Proof.Machine

/-- The imaginary term of one sample (a, b) (R170): REFERENCE uses only the imaginary part of the
input, CANONICAL is the standard formula. -/
def complexImTerm (p : Params) (a b c s : Word) : Word :=
  match p.cdftForm with
  | .reference => fsub p (fmul p b s) (fmul p b c)
  | .canonical => fsub p (fmul p b c) (fmul p a s)

/-- `CBfly` of R170, at the angle t. -/
def complexButterfly (p : Params) (acc : Word × Word) (a b t : Word) : Word × Word :=
  (fadd p acc.1 (fadd p (fmul p a (p.fcos t)) (fmul p b (p.fsin t))),
   fadd p acc.2 (complexImTerm p a b (p.fcos t) (p.fsin t)))

/-- Bin k of CDFT over N samples (R171). -/
def cdftBin (p : Params) (a b : List Word) (n k : Nat) : Word × Word :=
  (List.range n).foldl
    (fun acc i => complexButterfly p acc (a.getD i ZERO) (b.getD i ZERO) (angleOf p k i n))
    (ZERO, ZERO)

/-- Rex_out and Imx_out, all N bins (R171). -/
def cdftOutputs (p : Params) (a b : List Word) (n : Nat) : List (List Word) :=
  let bins := (List.range n).map (cdftBin p a b n)
  [bins.map Prod.fst, bins.map Prod.snd]

/-- CDFT after decoding (R171). -/
def cdftCommand (p : Params) (s : State) : State :=
  runPhases p s (transformLengthCheck s) none (cdftOperands s) false
    (fun ins => cdftOutputs p (ins.getD 0 []) (ins.getD 1 []) s.len.toNat)

/-- `cdft`, word 0x03 (R171). -/
def execCdft (s : State) : Host.Outcome State Fault Refusal := .next (cdftCommand Config.params s)

end Sys2Proof.Machine
end

