-- ==== Sys2Proof/Machine/Window.lean ====
section
/-! DEFINITION. The window functions and the WIN command (42_window.md). -/

namespace Sys2Proof.Machine

/-- Hamming(i, M), with the divisor M (R141). -/
def hammingWeight (p : Params) (i m : Nat) : Word :=
  fsub p C054 (fmul p C046 (p.fcos (fdiv p (fmul p TWO_PI (i2f i)) (i2f m))))

/-- Blackman(i, M), left to right, its second angle from 4π (R142). -/
def blackmanWeight (p : Params) (i m : Nat) : Word :=
  fadd p
    (fsub p C042 (fmul p HALF (p.fcos (fdiv p (fmul p TWO_PI (i2f i)) (i2f m)))))
    (fmul p C008 (p.fcos (fdiv p (fmul p FOUR_PI (i2f i)) (i2f m))))

/-- `W(wsel, i, M, tab)` (R140, R143).  It is asked only for `i < M`, and a table has M entries, so
the default of the table access is never used (log 17). -/
def windowWeight (p : Params) (wsel : WSel) (i m : Nat) (tab : List Word) : Word :=
  match wsel with
  | .hamming => hammingWeight p i m
  | .blackman => blackmanWeight p i m
  | .custom => tab.getD i ZERO

/-- The table WIN writes (R144). -/
def winTable (p : Params) (wsel : WSel) (m : Nat) : List Word :=
  (List.range m).map (fun i => windowWeight p wsel i m [])

/-- WIN(wsel) after decoding (R144). -/
def winCommand (p : Params) (wsel : WSel) (s : State) : State :=
  runPhases p s (positiveLengthCheck s) none (winOperands s) (isEven s.len.toNat)
    (fun _ => [winTable p wsel s.len.toNat])

/-- `win.hamming`, word 0x08 (R144). -/
def execWinHamming (s : State) : Host.Outcome State Fault Refusal :=
  .next (winCommand Config.params .hamming s)

/-- `win.blackman`, word 0x18 (R144). -/
def execWinBlackman (s : State) : Host.Outcome State Fault Refusal :=
  .next (winCommand Config.params .blackman s)

end Sys2Proof.Machine
end

