-- ==== Sys2Proof/Machine/Fir.lean ====
section
/-! DEFINITION. The FIR filter synthesizer (46_fir_synth.md): LPF, HPF and BPF. -/

namespace Sys2Proof.Machine

/-- A cutoff ratio, the rounded quotient (R191, R193). -/
def cutoffRatio (p : Params) (cutoff fs : Word) : Word := fdiv p cutoff fs

/-- `CutoffOk(c)` (R191): strictly between 0 and 0.5; false for a NaN. -/
def cutoffOk (c : Word) : Bool := flt ZERO c && flt c HALF

/-- `ParamCheck` of LPF and HPF (R191). -/
def ratioCheck (p : Params) (s : State) : Option Cause :=
  if cutoffOk (cutoffRatio p s.fc0 s.fs) then none else some .ratioRange

/-- `ParamCheck` of BPF (R191): both ratios, then the order of the two cutoffs as written. -/
def bandCheck (p : Params) (s : State) : Option Cause :=
  if !cutoffOk (cutoffRatio p s.fc0 s.fs) then some .ratioRange
  else if !cutoffOk (cutoffRatio p s.fc1 s.fs) then some .ratioRange
  else if !flt s.fc0 s.fc1 then some .cutoffOrder
  else none

/-- Tap i of `LpKernel(c, M, wsel, tab)` (R190): the centre tap is 2π·c with no window factor. -/
def lowPassTap (p : Params) (c : Word) (m : Nat) (wsel : WSel) (tab : List Word) (i : Nat) : Word :=
  let off : Int := (i : Int) - ((m / 2 : Nat) : Int)
  if off = 0 then fmul p TWO_PI c
  else
    fmul p (fdiv p (p.fsin (fmul p (fmul p TWO_PI c) (i2f off))) (i2f off))
      (windowWeight p wsel i m tab)

/-- `LpKernel(c, M, wsel, tab)` (R190). -/
def lowPassKernel (p : Params) (c : Word) (m : Nat) (wsel : WSel) (tab : List Word) : List Word :=
  (List.range m).map (lowPassTap p c m wsel tab)

/-- `Invert(h, M)`: negate every tap, then add a unit impulse at the centre tap (R192). -/
def spectralInvert (p : Params) (h : List Word) (m : Nat) : List Word :=
  (h.map fneg).modify (m / 2) (fun g => fadd p g ONE)

/-- The band-pass kernel in the steps of R195. -/
def bandPassKernel (p : Params) (cl cu : Word) (m : Nat) (wsel : WSel) (tab : List Word) :
    List Word :=
  let l := lowPassKernel p cl m wsel tab
  let hu := spectralInvert p (lowPassKernel p cu m wsel tab) m
  spectralInvert p (List.zipWith (fadd p) l hu) m

/-- LPF(wsel) after decoding (R193).  The only input region is the caller's window table, read when WSEL
is CUSTOM; the other windows have none (R143). -/
def lpfCommand (p : Params) (wsel : WSel) (s : State) : State :=
  runPhases p s (positiveLengthCheck s) (ratioCheck p s) (filterOperands wsel s) (isEven s.len.toNat)
    (fun ins =>
      [lowPassKernel p (cutoffRatio p s.fc0 s.fs) s.len.toNat wsel (ins.getD 0 [])])

/-- HPF(wsel) after decoding (R194). -/
def hpfCommand (p : Params) (wsel : WSel) (s : State) : State :=
  runPhases p s (positiveLengthCheck s) (ratioCheck p s) (filterOperands wsel s) (isEven s.len.toNat)
    (fun ins =>
      [spectralInvert p
        (lowPassKernel p (cutoffRatio p s.fc0 s.fs) s.len.toNat wsel (ins.getD 0 []))
        s.len.toNat])

/-- BPF(wsel) after decoding (R195). -/
def bpfCommand (p : Params) (wsel : WSel) (s : State) : State :=
  runPhases p s (positiveLengthCheck s) (bandCheck p s) (filterOperands wsel s) (isEven s.len.toNat)
    (fun ins =>
      [bandPassKernel p (cutoffRatio p s.fc0 s.fs) (cutoffRatio p s.fc1 s.fs) s.len.toNat wsel
        (ins.getD 0 [])])

/-- `lpf`, word 0x05: Hamming, the default (R193). -/
def execLpf (s : State) : Host.Outcome State Fault Refusal :=
  .next (lpfCommand Config.params .hamming s)

/-- `lpf.blackman`, word 0x15 (R193). -/
def execLpfBlackman (s : State) : Host.Outcome State Fault Refusal :=
  .next (lpfCommand Config.params .blackman s)

/-- `lpf.custom`, word 0x25 (R193). -/
def execLpfCustom (s : State) : Host.Outcome State Fault Refusal :=
  .next (lpfCommand Config.params .custom s)

/-- `hpf`, word 0x06 (R194). -/
def execHpf (s : State) : Host.Outcome State Fault Refusal :=
  .next (hpfCommand Config.params .hamming s)

/-- `hpf.blackman`, word 0x16 (R194). -/
def execHpfBlackman (s : State) : Host.Outcome State Fault Refusal :=
  .next (hpfCommand Config.params .blackman s)

/-- `hpf.custom`, word 0x26 (R194). -/
def execHpfCustom (s : State) : Host.Outcome State Fault Refusal :=
  .next (hpfCommand Config.params .custom s)

/-- `bpf`, word 0x07 (R195). -/
def execBpf (s : State) : Host.Outcome State Fault Refusal :=
  .next (bpfCommand Config.params .hamming s)

/-- `bpf.blackman`, word 0x17 (R195). -/
def execBpfBlackman (s : State) : Host.Outcome State Fault Refusal :=
  .next (bpfCommand Config.params .blackman s)

/-- `bpf.custom`, word 0x27 (R195). -/
def execBpfCustom (s : State) : Host.Outcome State Fault Refusal :=
  .next (bpfCommand Config.params .custom s)

end Sys2Proof.Machine
end

