-- ==== Sys2Proof/Machine/Polar.lean ====
section
/-! DEFINITION. The rectangular to polar converter (45_rect2polar.md): R2P. -/

namespace Sys2Proof.Machine

/-- Magnitude of one pair, from the original real part (R180). -/
def polarMagnitude (p : Params) (r m : Word) : Word :=
  fsqrt p (fadd p (fmul p r r) (fmul p m m))

/-- The real part the quotient is formed with: 10^-20 in place of either zero, on a local value
(R180). -/
def nonzeroReal (r : Word) : Word := if feq r ZERO then TINY else r

/-- Phase of one pair: the base case, then the quadrant correction by the original signs (R180). -/
def polarPhase (p : Params) (r m : Word) : Word :=
  let base := p.fatan (fdiv p m (nonzeroReal r))
  if flt r ZERO && flt m ZERO then fsub p base PI
  else if flt r ZERO && fge m ZERO then fadd p base PI
  else base

/-- Magnitude and Phase of K pairs (R180). -/
def r2pOutputs (p : Params) (rex imx : List Word) (k : Nat) : List (List Word) :=
  [(List.range k).map (fun i => polarMagnitude p (rex.getD i ZERO) (imx.getD i ZERO)),
   (List.range k).map (fun i => polarPhase p (rex.getD i ZERO) (imx.getD i ZERO))]

/-- R2P after decoding (R180). -/
def r2pCommand (p : Params) (s : State) : State :=
  runPhases p s (positiveLengthCheck s) none (r2pOperands s) false
    (fun ins => r2pOutputs p (ins.getD 0 []) (ins.getD 1 []) s.len.toNat)

/-- `r2p`, word 0x04 (R180). -/
def execR2p (s : State) : Host.Outcome State Fault Refusal := .next (r2pCommand Config.params s)

end Sys2Proof.Machine
end

