-- ==== Sys2Proof/Machine/RealTransform.lean ====
section
/-! DEFINITION. The butterfly step and the real-input transform pair (43_real_transform.md): DFT and
IDFT.  Sums start at +0 and take their terms in ascending order (41_numerics.md R124). -/

namespace Sys2Proof.Machine

/-- `Bfly(re, im, s, t)` (R150): the imaginary accumulator is decreased by its term. -/
def butterfly (p : Params) (acc : Word × Word) (s t : Word) : Word × Word :=
  (fadd p acc.1 (fmul p s (p.fcos t)), fsub p acc.2 (fmul p s (p.fsin t)))

/-- Bin k of DFT over N samples (R151). -/
def dftBin (p : Params) (x : List Word) (n k : Nat) : Word × Word :=
  (List.range n).foldl (fun acc i => butterfly p acc (x.getD i ZERO) (angleOf p k i n)) (ZERO, ZERO)

/-- Rex and Imx, bins 0 to K-1 (R151). -/
def dftOutputs (p : Params) (x : List Word) (n : Nat) : List (List Word) :=
  let bins := (List.range (n / 2)).map (dftBin p x n)
  [bins.map Prod.fst, bins.map Prod.snd]

/-- DFT after decoding (R151). -/
def dftCommand (p : Params) (s : State) : State :=
  runPhases p s (transformLengthCheck s) none (dftOperands s) false
    (fun ins => dftOutputs p (ins.getD 0 []) s.len.toNat)

/-- `dft`, word 0x01 (R151). -/
def execDft (s : State) : Host.Outcome State Fault Refusal := .next (dftCommand Config.params s)

/-- `Synth(acc, r, m, t)` (R154): the two products of a bin are added to each other first. -/
def synth (p : Params) (acc r m t : Word) : Word :=
  fadd p acc (fadd p (fmul p r (p.fcos t)) (fmul p m (p.fsin t)))

/-- The pre-scaled real coefficient rs[k] (R155, R156): divisor N for bin 0, K for the others. -/
def scaledRe (p : Params) (rex : List Word) (n k : Nat) : Word :=
  fdiv p (rex.getD k ZERO) (if k = 0 then i2f n else i2f ((n / 2 : Nat) : Int))

/-- The pre-scaled imaginary coefficient is[k] (R155, R156): divisor -N for bin 0, -K for the
others. -/
def scaledIm (p : Params) (imx : List Word) (n k : Nat) : Word :=
  fdiv p (imx.getD k ZERO) (fneg (if k = 0 then i2f n else i2f ((n / 2 : Nat) : Int)))

/-- Sample i of IDFT (R155). -/
def idftSample (p : Params) (rex imx : List Word) (n i : Nat) : Word :=
  (List.range (n / 2)).foldl
    (fun acc k => synth p acc (scaledRe p rex n k) (scaledIm p imx n k) (angleOf p k i n)) ZERO

/-- The N samples IDFT writes (R155). -/
def idftOutputs (p : Params) (rex imx : List Word) (n : Nat) : List (List Word) :=
  [(List.range n).map (idftSample p rex imx n)]

/-- IDFT after decoding (R155). -/
def idftCommand (p : Params) (s : State) : State :=
  runPhases p s (transformLengthCheck s) none (idftOperands s) false
    (fun ins => idftOutputs p (ins.getD 0 []) (ins.getD 1 []) s.len.toNat)

/-- `idft`, word 0x02 (R155). -/
def execIdft (s : State) : Host.Outcome State Fault Refusal := .next (idftCommand Config.params s)

end Sys2Proof.Machine
end

