-- ==== Sys2Proof/Machine/Dispatch.lean ====
section
/-! DEFINITION. One arm per command. -/

namespace Sys2Proof.Machine

/-- What a decoded command does (40_command_execution.md R97, phases 2 to 9).  The state is the one
after `CMD <- w` (R93). -/
def exec (i : Instr) (s : State) : Host.Outcome State Fault Refusal :=
  match i with
  | .dft => Sys2Proof.Machine.execDft s
  | .idft => Sys2Proof.Machine.execIdft s
  | .cdft => Sys2Proof.Machine.execCdft s
  | .r2p => Sys2Proof.Machine.execR2p s
  | .lpf => Sys2Proof.Machine.execLpf s
  | .lpfBlackman => Sys2Proof.Machine.execLpfBlackman s
  | .lpfCustom => Sys2Proof.Machine.execLpfCustom s
  | .hpf => Sys2Proof.Machine.execHpf s
  | .hpfBlackman => Sys2Proof.Machine.execHpfBlackman s
  | .hpfCustom => Sys2Proof.Machine.execHpfCustom s
  | .bpf => Sys2Proof.Machine.execBpf s
  | .bpfBlackman => Sys2Proof.Machine.execBpfBlackman s
  | .bpfCustom => Sys2Proof.Machine.execBpfCustom s
  | .winHamming => Sys2Proof.Machine.execWinHamming s
  | .winBlackman => Sys2Proof.Machine.execWinBlackman s

end Sys2Proof.Machine
end

