-- ==== Sys2Proof/Machine/Transactions.lean ====
section
/-! DEFINITION. The five host transactions, which are all the steps of the machine
(40_command_execution.md R90 to R96, 70_reset_and_hazards.md R240). -/

namespace Sys2Proof.Machine

/-- A word returned to the host (R91, R94, R107): the block's own state does not change. -/
def returnWord (s : State) (v : Word) : State := { s with returned := s.returned ++ [v] }

/-- `issue(w)` (R97): decode, and either error entry or the command's own phases. -/
def issue (s : State) (w : Word) : Host.Outcome State Fault Refusal :=
  match decode w with
  | .ok i => exec i s
  | .error c => .next (reject s c)

/-- RegWrite(0, w), the command step (R93): store the word, legal or not (R21), then issue it. -/
def commandStep (s : State) (w : Word) : Host.Outcome State Fault Refusal :=
  issue { s with cmd := w } w

/-- Reset (R96, R240): every register to its reset value and buffer memory to a fresh unspecified
content (R36).  The host's own side, what it has been told and what it still has to do, stays
(log 11). -/
def resetBlock (s : State) : State :=
  { State.reset with
    mem := { resets := s.mem.resets + 1, cells := [] }
    script := s.script
    returned := s.returned }

/-- One host transaction (R90 to R96). -/
def performTxn (t : HostTxn) (s : State) : Host.Outcome State Fault Refusal :=
  match t with
  | .regRead r => .next (returnWord s (readReg Config.params s r))
  | .regWrite r v => if r = 0 then commandStep s v else .next (writeReg s r v)
  | .bufRead a =>
    if a < Config.params.bufWords then .next (returnWord s (memRead Config.params s.mem a))
    else .fault .hostAddressOutsideBuffer
  | .bufWrite a v =>
    if a < Config.params.bufWords then .next { s with mem := memWrite Config.params s.mem a v }
    else .fault .hostAddressOutsideBuffer
  | .reset => .next (resetBlock s)

/-- The host's next transaction, or, when it has none, nothing: between transactions the block keeps
all its state (R90, R227; log 1). -/
def nextTransaction (s : State) : Host.Outcome State Fault Refusal :=
  match s.script with
  | [] => .next s
  | t :: rest => performTxn t { s with script := rest }

/-- The host is about to write the command word `w` to CMD (R33, R93). -/
def presentCommand (s : State) (w : Word) : State := { s with script := .regWrite 0 w :: s.script }

end Sys2Proof.Machine
end

