-- ==== Sys2Proof/Machine/Step.lean ====
section
/-! DEFINITION. The step: one host transaction (40_command_execution.md R90). -/

namespace Sys2Proof.Machine

/-- One step of the machine. -/
def step (s : State) : Host.Outcome State Fault Refusal := nextTransaction s

/-- The state in which the host's next transaction writes the command word `w` to CMD.  There is no
program counter and no fetch: a command is what the host writes next (R33, R65; log 1, log 13). -/
def State.withFetchWord (s : State) (nbits w : Nat) : State :=
  presentCommand s (BitVec.ofNat 64 (w % 2 ^ nbits))

end Sys2Proof.Machine
end

