-- ==== Sys2Proof/Machine/Script.lean ====
section
/-! DEFINITION. Host scripts (30_encoding.md R80, R81): the statements, the transactions each one
stands for, and the textual form, one statement a line.  A script is the program of the block; the
step never reads its text, only the transactions it expands to.  Log 15. -/

namespace Sys2Proof.Machine

/-- The register names of R20. -/
inductive RegName where
  | CMD
  | STATUS
  | LEN
  | SRC0
  | SRC1
  | DST0
  | DST1
  | WTAB
  | FS
  | FC0
  | FC1
  | CAP
deriving DecidableEq, Repr

/-- A floating-point literal of R80: a decimal number `digits * 10^exp`, negated or not, or the bit
pattern itself. -/
inductive FloatLit where
  | decimal (negative : Bool) (digits : Nat) (exp : Int)
  | pattern (w : Word)
deriving DecidableEq, Repr

/-- The statements of R80 and the pseudo-statements of R81. -/
inductive Statement where
  | reset
  | wr (r : RegName) (v : Word)
  | wrf (r : RegName) (v : FloatLit)
  | rd (r : RegName)
  | st (a : Nat) (v : FloatLit)
  | ld (a : Nat)
  | cmd (i : Instr)
  | cmdw (w : Word)
  | fill (a : Nat) (vs : List FloatLit)
  | dft (x re im n : Word)
  | idft (re im x n : Word)
  | cdft (re im ore oim n : Word)
  | r2p (re im mag ph k : Word)
  | lpf (w : WSel) (kernel : Word) (fs fc : FloatLit) (m : Word)
  | hpf (w : WSel) (kernel : Word) (fs fc : FloatLit) (m : Word)
  | bpf (w : WSel) (kernel : Word) (fs fl fu : FloatLit) (m : Word)
  | win (blackman : Bool) (table m : Word)
deriving DecidableEq, Repr

/-- The number of a register (R20). -/
def regNumber : RegName → Fin 16
  | .CMD => 0
  | .STATUS => 1
  | .LEN => 2
  | .SRC0 => 3
  | .SRC1 => 4
  | .DST0 => 5
  | .DST1 => 6
  | .WTAB => 7
  | .FS => 8
  | .FC0 => 9
  | .FC1 => 10
  | .CAP => 11

/-- The word of a literal: the nearest binary64 value, ties to even, or the pattern itself (R80).
DESIGN CHOICE (log 15): a negated literal keeps its sign bit when its value is 0 or rounds to 0, so
`-0.0` is -0, and a literal too large is an infinity of its sign. -/
def literalWord : FloatLit → Word
  | .decimal negative digits (.ofNat e) => pack negative (roundBits (digits * 10 ^ e * 2 ^ 1074) 1)
  | .decimal negative digits (.negSucc e) => pack negative (roundBits (digits * 2 ^ 1074) (10 ^ (e + 1)))
  | .pattern w => w

/-- `wr REG, int`. -/
def writeTxn (r : RegName) (v : Word) : HostTxn := .regWrite (regNumber r) v

/-- `cmd mnemonic`. -/
def commandTxn (i : Instr) : HostTxn := .regWrite 0 (encode i)

/-- The LPF command with a window. -/
def lpfInstr : WSel → Instr
  | .hamming => .lpf
  | .blackman => .lpfBlackman
  | .custom => .lpfCustom

/-- The HPF command with a window. -/
def hpfInstr : WSel → Instr
  | .hamming => .hpf
  | .blackman => .hpfBlackman
  | .custom => .hpfCustom

/-- The BPF command with a window. -/
def bpfInstr : WSel → Instr
  | .hamming => .bpf
  | .blackman => .bpfBlackman
  | .custom => .bpfCustom

/-- `st a, v0`; `st a+1, v1`; ... -/
def fillTxns : Nat → List FloatLit → List HostTxn
  | _, [] => []
  | a, v :: vs => .bufWrite a (literalWord v) :: fillTxns (a + 1) vs

/-- The transactions a statement stands for (R80, R81). -/
def expand : Statement → List HostTxn
  | .reset => [.reset]
  | .wr r v => [writeTxn r v]
  | .wrf r v => [writeTxn r (literalWord v)]
  | .rd r => [.regRead (regNumber r)]
  | .st a v => [.bufWrite a (literalWord v)]
  | .ld a => [.bufRead a]
  | .cmd i => [commandTxn i]
  | .cmdw w => [.regWrite 0 w]
  | .fill a vs => fillTxns a vs
  | .dft x re im n =>
    [writeTxn .SRC0 x, writeTxn .DST0 re, writeTxn .DST1 im, writeTxn .LEN n, commandTxn .dft]
  | .idft re im x n =>
    [writeTxn .SRC0 re, writeTxn .SRC1 im, writeTxn .DST0 x, writeTxn .LEN n, commandTxn .idft]
  | .cdft re im ore oim n =>
    [writeTxn .SRC0 re, writeTxn .SRC1 im, writeTxn .DST0 ore, writeTxn .DST1 oim, writeTxn .LEN n,
      commandTxn .cdft]
  | .r2p re im mag ph k =>
    [writeTxn .SRC0 re, writeTxn .SRC1 im, writeTxn .DST0 mag, writeTxn .DST1 ph, writeTxn .LEN k,
      commandTxn .r2p]
  | .lpf w kernel fs fc m =>
    [writeTxn .DST0 kernel, writeTxn .FS (literalWord fs), writeTxn .FC0 (literalWord fc),
      writeTxn .LEN m, commandTxn (lpfInstr w)]
  | .hpf w kernel fs fc m =>
    [writeTxn .DST0 kernel, writeTxn .FS (literalWord fs), writeTxn .FC0 (literalWord fc),
      writeTxn .LEN m, commandTxn (hpfInstr w)]
  | .bpf w kernel fs fl fu m =>
    [writeTxn .DST0 kernel, writeTxn .FS (literalWord fs), writeTxn .FC0 (literalWord fl),
      writeTxn .FC1 (literalWord fu), writeTxn .LEN m, commandTxn (bpfInstr w)]
  | .win blackman table m =>
    [writeTxn .DST0 table, writeTxn .LEN m, commandTxn (if blackman then .winBlackman else .winHamming)]

/-- The host is about to perform a script (R80, R107). -/
def loadScript (s : State) (program : List Statement) : State :=
  { s with script := program.flatMap expand }

/-! ### The textual form (R80) -/

/-- The part of a line before a comment. -/
def beforeComment (line : List Char) : List Char := line.takeWhile (· != '#')

/-- A line without white space at its ends. -/
def trimmed (cs : List Char) : List Char :=
  ((cs.dropWhile Char.isWhitespace).reverse.dropWhile Char.isWhitespace).reverse

/-- A list cut at every occurrence of a character. -/
def cutAt (sep : Char) : List Char → List (List Char)
  | [] => [[]]
  | c :: rest =>
    if c = sep then [] :: cutAt sep rest
    else
      match cutAt sep rest with
      | [] => [[c]]
      | first :: more => (c :: first) :: more

/-- The value of a digit character in a base up to 16. -/
def digitOf (base : Nat) (c : Char) : Option Nat :=
  let lower := c.toLower
  let d :=
    if c.isDigit then some (c.toNat - '0'.toNat)
    else if 'a' ≤ lower ∧ lower ≤ 'f' then some (lower.toNat - 'a'.toNat + 10)
    else none
  d.bind (fun n => if n < base then some n else none)

/-- A non-empty run of digits in a base. -/
def parseDigits (base : Nat) (cs : List Char) : Option Nat :=
  if cs.isEmpty then none
  else cs.foldl (fun acc c => acc.bind (fun n => (digitOf base c).map (fun d => n * base + d))) (some 0)

/-- An integer in decimal or `0x` hexadecimal (R80).  DESIGN CHOICE (log 15): no sign is read, so `-1`
is no integer argument. -/
def parseNat : List Char → Option Nat
  | '0' :: 'x' :: rest => parseDigits 16 rest
  | cs => parseDigits 10 cs

/-- A decimal exponent, `e` already taken off.  DESIGN CHOICE (log 15): its sign may be + or -. -/
def parseExponent : List Char → Option Int
  | '-' :: rest => (parseDigits 10 rest).map (fun n => -(n : Int))
  | '+' :: rest => (parseDigits 10 rest).map (fun n => (n : Int))
  | cs => (parseDigits 10 cs).map (fun n => (n : Int))

/-- A decimal significand with an optional point, and the exponent the point adds.  DESIGN CHOICE
(log 15): digits may be missing on one side of the point. -/
def parseSignificand (cs : List Char) : Option (Nat × Int) :=
  match cutAt '.' cs with
  | [whole] => (parseDigits 10 whole).map (fun n => (n, 0))
  | [whole, frac] => (parseDigits 10 (whole ++ frac)).map (fun n => (n, -(frac.length : Int)))
  | _ => none

/-- An unsigned decimal literal, negated or not. -/
def parseDecimal (negative : Bool) (cs : List Char) : Option FloatLit :=
  match cutAt 'e' (cs.map Char.toLower) with
  | [sig] => (parseSignificand sig).map (fun x => .decimal negative x.1 x.2)
  | [sig, ex] =>
    match parseSignificand sig, parseExponent ex with
    | some x, some e => some (.decimal negative x.1 (x.2 + e))
    | _, _ => none
  | _ => none

/-- A floating-point literal (R80).  DESIGN CHOICE (log 15): the significand may have a leading -, never
a leading +; a bit pattern has no sign, and one of more than 64 bits is cut. -/
def parseFloat : List Char → Option FloatLit
  | 'f' :: ':' :: '0' :: 'x' :: rest => (parseDigits 16 rest).map (fun n => .pattern (BitVec.ofNat 64 n))
  | '-' :: rest => parseDecimal true rest
  | cs => parseDecimal false cs

/-- A register name, in any case (R80). -/
def parseReg (cs : List Char) : Option RegName :=
  match String.ofList (cs.map Char.toUpper) with
  | "CMD" => some .CMD
  | "STATUS" => some .STATUS
  | "LEN" => some .LEN
  | "SRC0" => some .SRC0
  | "SRC1" => some .SRC1
  | "DST0" => some .DST0
  | "DST1" => some .DST1
  | "WTAB" => some .WTAB
  | "FS" => some .FS
  | "FC0" => some .FC0
  | "FC1" => some .FC1
  | "CAP" => some .CAP
  | _ => none

/-- The assembler mnemonics of R73. -/
def parseMnemonic (m : String) : Option Instr :=
  match m with
  | "dft" => some .dft
  | "idft" => some .idft
  | "cdft" => some .cdft
  | "r2p" => some .r2p
  | "lpf" => some .lpf
  | "lpf.hamming" => some .lpf
  | "lpf.blackman" => some .lpfBlackman
  | "lpf.custom" => some .lpfCustom
  | "hpf" => some .hpf
  | "hpf.hamming" => some .hpf
  | "hpf.blackman" => some .hpfBlackman
  | "hpf.custom" => some .hpfCustom
  | "bpf" => some .bpf
  | "bpf.hamming" => some .bpf
  | "bpf.blackman" => some .bpfBlackman
  | "bpf.custom" => some .bpfCustom
  | "win.hamming" => some .winHamming
  | "win.blackman" => some .winBlackman
  | _ => none

/-- An integer argument as a register value. -/
def parseWord (cs : List Char) : Option Word :=
  (parseNat cs).bind (fun n => if n < 2 ^ 64 then some (BitVec.ofNat 64 n) else none)

/-- The pseudo-statement of a command with its arguments (R81). -/
def parsePseudo (i : Instr) (args : List (List Char)) : Option Statement :=
  match i, args with
  | .dft, [x, re, im, n] => do
    return .dft (← parseWord x) (← parseWord re) (← parseWord im) (← parseWord n)
  | .idft, [re, im, x, n] => do
    return .idft (← parseWord re) (← parseWord im) (← parseWord x) (← parseWord n)
  | .cdft, [re, im, ore, oim, n] => do
    return .cdft (← parseWord re) (← parseWord im) (← parseWord ore) (← parseWord oim) (← parseWord n)
  | .r2p, [re, im, mag, ph, k] => do
    return .r2p (← parseWord re) (← parseWord im) (← parseWord mag) (← parseWord ph) (← parseWord k)
  | .lpf, [a, fs, fc, m] => do
    return .lpf .hamming (← parseWord a) (← parseFloat fs) (← parseFloat fc) (← parseWord m)
  | .lpfBlackman, [a, fs, fc, m] => do
    return .lpf .blackman (← parseWord a) (← parseFloat fs) (← parseFloat fc) (← parseWord m)
  | .lpfCustom, [a, fs, fc, m] => do
    return .lpf .custom (← parseWord a) (← parseFloat fs) (← parseFloat fc) (← parseWord m)
  | .hpf, [a, fs, fc, m] => do
    return .hpf .hamming (← parseWord a) (← parseFloat fs) (← parseFloat fc) (← parseWord m)
  | .hpfBlackman, [a, fs, fc, m] => do
    return .hpf .blackman (← parseWord a) (← parseFloat fs) (← parseFloat fc) (← parseWord m)
  | .hpfCustom, [a, fs, fc, m] => do
    return .hpf .custom (← parseWord a) (← parseFloat fs) (← parseFloat fc) (← parseWord m)
  | .bpf, [a, fs, fl, fu, m] => do
    return .bpf .hamming (← parseWord a) (← parseFloat fs) (← parseFloat fl) (← parseFloat fu)
      (← parseWord m)
  | .bpfBlackman, [a, fs, fl, fu, m] => do
    return .bpf .blackman (← parseWord a) (← parseFloat fs) (← parseFloat fl) (← parseFloat fu)
      (← parseWord m)
  | .bpfCustom, [a, fs, fl, fu, m] => do
    return .bpf .custom (← parseWord a) (← parseFloat fs) (← parseFloat fl) (← parseFloat fu)
      (← parseWord m)
  | .winHamming, [a, m] => do return .win false (← parseWord a) (← parseWord m)
  | .winBlackman, [a, m] => do return .win true (← parseWord a) (← parseWord m)
  | _, _ => none

/-- A statement from its first word and its arguments. -/
def parseStatement (head : String) (args : List (List Char)) : Option Statement :=
  match head, args with
  | "reset", [] => some .reset
  | "wr", [r, v] => do return .wr (← parseReg r) (← parseWord v)
  | "wrf", [r, v] => do return .wrf (← parseReg r) (← parseFloat v)
  | "rd", [r] => do return .rd (← parseReg r)
  | "st", [a, v] => do return .st (← parseNat a) (← parseFloat v)
  | "ld", [a] => do return .ld (← parseNat a)
  | "cmd", [m] => do return .cmd (← parseMnemonic (String.ofList m))
  | "cmdw", [w] => do return .cmdw (← parseWord w)
  | "fill", a :: v :: vs => do return .fill (← parseNat a) (← (v :: vs).mapM parseFloat)
  | m, args => do parsePseudo (← parseMnemonic m) args

/-- One line: its statements, at most one, or `none` when it is not a statement of R80 or R81. -/
def parseLine (line : List Char) : Option (List Statement) :=
  let body := trimmed (beforeComment line)
  if body.isEmpty then some []
  else
    let head := body.takeWhile (fun c => !c.isWhitespace)
    let rest := trimmed (body.dropWhile (fun c => !c.isWhitespace))
    let args := if rest.isEmpty then [] else (cutAt ',' rest).map trimmed
    (parseStatement (String.ofList head) args).map (fun s => [s])

/-- A whole script text. -/
def parseScript (text : String) : Option (List Statement) :=
  ((cutAt '\n' text.toList).mapM parseLine).map List.flatten

end Sys2Proof.Machine
end

