-- ==== Sys2Proof/Safety.lean ====
section
/-! DEFINITION. What counts as a safe run, the invariant of the machine, the vocabulary of the
claims, and the named properties of sine, cosine and arctangent a claim may assume (41_numerics.md
R121).  The vocabulary is written from the tables of the spec, not from the model's operations. -/

namespace Sys2Proof.Machine

/-! ### Safe runs and the invariant -/

/-- A step is safe when the machine goes on. -/
def SafeStep (s : State) : Prop := ∃ t, step s = .next t

/-- A run of `n` steps is safe when it never stops. -/
def SafeRun (n : Nat) (s : State) : Prop := ∃ t, Host.Core.run Sys2Proof.core n s = .next t

/-- Every transaction still to be performed can be expressed by a host (R94, R95). -/
def ScriptOk (s : State) : Prop := s.script.all (HostTxn.wf Config.params) = true

/-- The STATUS words that can occur: 0 after reset, 0x01 and 0x03 after an accepted command, and the
nine of a rejection (R36, R215). -/
def legalStatusWords : List Word :=
  [0x00, 0x01, 0x03, 0x15, 0x25, 0x39, 0x49, 0x59, 0x69, 0x7D, 0x8D, 0x9D]

/-- The invariant: buffer memory is in canonical form with every listed address below 2^AW, and
STATUS holds a word the spec gives it. -/
def Inv (s : State) : Prop :=
  Memory.wf Config.params s.mem = true ∧ s.status ∈ legalStatusWords

/-! ### Vocabulary of the claims -/

/-- The word the block's buffer memory holds at an address (R50). -/
def word (s : State) (a : Nat) : Word := memRead Config.params s.mem a

/-- A region fits in buffer memory (R53). -/
def Fits (r : Nat × Nat) : Prop := r.1 + r.2 ≤ 2 ^ Config.params.aw

/-- Two regions of positive length do not overlap: one ends before the other begins (R54). -/
def Apart (r q : Nat × Nat) : Prop := r.1 + r.2 ≤ q.1 ∨ q.1 + q.2 ≤ r.1

/-- An address outside a region. -/
def Outside (a : Nat) (r : Nat × Nat) : Prop := a < r.1 ∨ r.1 + r.2 ≤ a

/-- `t` differs from `s` at most in STATUS and in the content of buffer memory: CMD, every operand
register, and the host's side are unchanged. -/
def OnlyResults (s t : State) : Prop :=
  t = { s with mem := { s.mem with cells := t.mem.cells }, status := t.status }

/-- The input regions of a command, (base, len), from the table of R100. -/
def inputRegions (i : Instr) (s : State) : List (Nat × Nat) :=
  match i with
  | .dft => [(s.src0.toNat, s.len.toNat)]
  | .idft => [(s.src0.toNat, s.len.toNat / 2), (s.src1.toNat, s.len.toNat / 2)]
  | .cdft => [(s.src0.toNat, s.len.toNat), (s.src1.toNat, s.len.toNat)]
  | .r2p => [(s.src0.toNat, s.len.toNat), (s.src1.toNat, s.len.toNat)]
  | .lpf => []
  | .lpfBlackman => []
  | .lpfCustom => [(s.wtab.toNat, s.len.toNat)]
  | .hpf => []
  | .hpfBlackman => []
  | .hpfCustom => [(s.wtab.toNat, s.len.toNat)]
  | .bpf => []
  | .bpfBlackman => []
  | .bpfCustom => [(s.wtab.toNat, s.len.toNat)]
  | .winHamming => []
  | .winBlackman => []

/-- The output regions of a command, (base, len), from the table of R100. -/
def outputRegions (i : Instr) (s : State) : List (Nat × Nat) :=
  match i with
  | .dft => [(s.dst0.toNat, s.len.toNat / 2), (s.dst1.toNat, s.len.toNat / 2)]
  | .idft => [(s.dst0.toNat, s.len.toNat)]
  | .cdft => [(s.dst0.toNat, s.len.toNat), (s.dst1.toNat, s.len.toNat)]
  | .r2p => [(s.dst0.toNat, s.len.toNat), (s.dst1.toNat, s.len.toNat)]
  | .lpf => [(s.dst0.toNat, s.len.toNat)]
  | .lpfBlackman => [(s.dst0.toNat, s.len.toNat)]
  | .lpfCustom => [(s.dst0.toNat, s.len.toNat)]
  | .hpf => [(s.dst0.toNat, s.len.toNat)]
  | .hpfBlackman => [(s.dst0.toNat, s.len.toNat)]
  | .hpfCustom => [(s.dst0.toNat, s.len.toNat)]
  | .bpf => [(s.dst0.toNat, s.len.toNat)]
  | .bpfBlackman => [(s.dst0.toNat, s.len.toNat)]
  | .bpfCustom => [(s.dst0.toNat, s.len.toNat)]
  | .winHamming => [(s.dst0.toNat, s.len.toNat)]
  | .winBlackman => [(s.dst0.toNat, s.len.toNat)]

/-- The three transforms, whose length must be at least 2 (R101). -/
def IsTransform (i : Instr) : Prop := i = .dft ∨ i = .idft ∨ i = .cdft

/-- The low-pass and high-pass commands (R102). -/
def IsSingleCutoff (i : Instr) : Prop :=
  i = .lpf ∨ i = .lpfBlackman ∨ i = .lpfCustom ∨ i = .hpf ∨ i = .hpfBlackman ∨ i = .hpfCustom

/-- The band-pass commands (R102). -/
def IsBandPass (i : Instr) : Prop := i = .bpf ∨ i = .bpfBlackman ∨ i = .bpfCustom

/-- The length check passes (R101). -/
def LengthOk (i : Instr) (s : State) : Prop :=
  (IsTransform i → 2 ≤ s.len.toNat) ∧ (¬ IsTransform i → 0 < s.len.toNat)

/-- The ratio of a cutoff register to FS lies strictly between 0 and 0.5 (R191). -/
def RatioOk (cutoff fs : Word) : Prop :=
  flt ZERO (fdiv Config.params cutoff fs) = true ∧ flt (fdiv Config.params cutoff fs) HALF = true

/-- Every cutoff ratio of the command is in range (R191). -/
def RatiosOk (i : Instr) (s : State) : Prop :=
  (IsSingleCutoff i → RatioOk s.fc0 s.fs) ∧
  (IsBandPass i → RatioOk s.fc0 s.fs ∧ RatioOk s.fc1 s.fs)

/-- The lower cutoff of a band-pass is below the upper, as written (R191). -/
def OrderOk (i : Instr) (s : State) : Prop := IsBandPass i → flt s.fc0 s.fc1 = true

/-- Every region of the command fits in buffer memory (R53). -/
def RegionsFit (i : Instr) (s : State) : Prop :=
  ∀ r ∈ inputRegions i s ++ outputRegions i s, Fits r

/-- No output region overlaps an input region or another output region (R54). -/
def RegionsApart (i : Instr) (s : State) : Prop :=
  (∀ r ∈ outputRegions i s, ∀ q ∈ inputRegions i s, Apart r q) ∧
  (outputRegions i s).Pairwise Apart

/-- Phases 2 to 5 of R97 all pass: the command is accepted. -/
def Accepted (i : Instr) (s : State) : Prop :=
  LengthOk i s ∧ RatiosOk i s ∧ OrderOk i s ∧ RegionsFit i s ∧ RegionsApart i s

/-- Every address outside the command's output regions reads as before (R56). -/
def OnlyOutputsWritten (i : Instr) (s t : State) : Prop :=
  ∀ a, (∀ r ∈ outputRegions i s, Outside a r) → word t a = word s a

/-- The weight of a window at tap i of M, for the table of a state (R141, R142, R143). -/
def weight (w : WSel) (s : State) (i m : Nat) : Word :=
  let p := Config.params
  let a := fdiv p (fmul p TWO_PI (i2f i)) (i2f m)
  let b := fdiv p (fmul p FOUR_PI (i2f i)) (i2f m)
  match w with
  | .hamming => fsub p C054 (fmul p C046 (p.fcos a))
  | .blackman => fadd p (fsub p C042 (fmul p HALF (p.fcos a))) (fmul p C008 (p.fcos b))
  | .custom => word s (s.wtab.toNat + i)

/-- Tap i of the low-pass kernel of length M with ratio c (R190). -/
def lowPassValue (w : WSel) (s : State) (c : Word) (m i : Nat) : Word :=
  let p := Config.params
  if i = m / 2 then fmul p TWO_PI c
  else
    let off := i2f ((i : Int) - ((m / 2 : Nat) : Int))
    fmul p (fdiv p (p.fsin (fmul p (fmul p TWO_PI c) off)) off) (weight w s i m)

/-- A tap after spectral inversion: negated, with the unit impulse added at the centre (R192). -/
def invertedValue (m i : Nat) (h : Word) : Word :=
  if i = m / 2 then fadd Config.params (fneg h) ONE else fneg h

/-- STATUS of an accepted filter or WIN command: EVENM tells an even length (R22). -/
def filterStatus (s : State) : Word := if s.len.toNat % 2 = 0 then 0x03 else 0x01

/-! ### Rounding -/

/-- The finite or infinite word `c` has the magnitude that `n / d` units of 2^-1074 rounds to, to
nearest with ties to even, an infinity from the middle between the largest finite number and 2^1024
on (R111); `d` positive. -/
def NearestEven (n d : Nat) (c : Word) : Prop :=
  isNaN c = false ∧
  (isInf c = true ↔ (2 ^ 54 - 1) * 2 ^ 2044 * d ≤ n) ∧
  (isFinite c = true → ∀ y : Word, isFinite y = true →
    ((magnitude c * d : Nat) - n : Int).natAbs ≤ ((magnitude y * d : Nat) - n : Int).natAbs ∧
    (((magnitude c * d : Nat) - n : Int).natAbs = ((magnitude y * d : Nat) - n : Int).natAbs →
      magnitude y ≠ magnitude c → fracOf c % 2 = 0))

/-! ### Named properties of the elementary functions (R121)

None is a fact of the hardware; a claim that needs one assumes it. -/

/-- P-ZERO. -/
def PZero (p : Params) : Prop :=
  p.fsin 0x0000000000000000#64 = 0x0000000000000000#64 ∧
  p.fsin 0x8000000000000000#64 = 0x8000000000000000#64 ∧
  p.fcos 0x0000000000000000#64 = ONE ∧
  p.fcos 0x8000000000000000#64 = ONE ∧
  p.fatan 0x0000000000000000#64 = 0x0000000000000000#64 ∧
  p.fatan 0x8000000000000000#64 = 0x8000000000000000#64

/-- P-NAN. -/
def PNan (p : Params) : Prop :=
  (∀ x, isNaN x = true → isNaN (p.fsin x) = true ∧ isNaN (p.fcos x) = true ∧ isNaN (p.fatan x) = true) ∧
  (∀ x, isInf x = true → isNaN (p.fsin x) = true ∧ isNaN (p.fcos x) = true)

/-- The word of PI/2 (R121). -/
def HALF_PI : Word := 0x3FF921FB54442D18#64

/-- P-RANGE. -/
def PRange (p : Params) : Prop :=
  (∀ x, isFinite x = true →
    fge (p.fsin x) (fneg ONE) = true ∧ fge ONE (p.fsin x) = true ∧
    fge (p.fcos x) (fneg ONE) = true ∧ fge ONE (p.fcos x) = true) ∧
  (∀ x, isNaN x = false →
    fge (p.fatan x) (fneg HALF_PI) = true ∧ fge HALF_PI (p.fatan x) = true)

/-- P-ODD. -/
def POdd (p : Params) : Prop :=
  ∀ x, isNaN x = false →
    p.fsin (fneg x) = fneg (p.fsin x) ∧ p.fcos (fneg x) = p.fcos x ∧ p.fatan (fneg x) = fneg (p.fatan x)

/-- P-SIGN. -/
def PSign (p : Params) : Prop :=
  ∀ x, isNaN x = false → isNaN (p.fatan x) = false ∧ signOf (p.fatan x) = signOf x

/-- P-ATANINF. -/
def PAtanInf (p : Params) : Prop :=
  p.fatan 0x7FF0000000000000#64 = HALF_PI ∧ p.fatan 0xFFF0000000000000#64 = fneg HALF_PI

/-- The word `y` lies within `u` units in the last place of a binary64 value nearest to the real
number `v` (R121, P-ACC; the unit is that of the nearest value, log 18). -/
def WithinUlps (u : Nat) (v : ℝ) (y : Word) : Prop :=
  ∃ c : Word, isFinite c = true ∧
    (∀ d : Word, isFinite d = true →
      |(scaled c : ℝ) - v * 2 ^ 1074| ≤ |(scaled d : ℝ) - v * 2 ^ 1074|) ∧
    isFinite y = true ∧
    (scaled y - scaled c).natAbs ≤ u * 2 ^ (expOf c - 1)

/-- P-ACC(u). -/
def PAcc (u : Nat) (p : Params) : Prop :=
  ∀ x, isFinite x = true →
    WithinUlps u (Real.sin ((scaled x : ℝ) / 2 ^ 1074)) (p.fsin x) ∧
    WithinUlps u (Real.cos ((scaled x : ℝ) / 2 ^ 1074)) (p.fcos x) ∧
    WithinUlps u (Real.arctan ((scaled x : ℝ) / 2 ^ 1074)) (p.fatan x)

end Sys2Proof.Machine
end

