-- ==== Sys2Proof/Certificates/Slice0/Obligations.lean ====
section
/-! DEFINITION. The statements for the provers.  The vocabulary (`Accepted`, `OnlyResults`, `word`,
`weight` and the rest) is in Sys2Proof/Safety.lean and follows the spec's tables. -/

open Sys2Proof Sys2Proof.Machine

/-! ### Encoding and decoding -/

/-- R73: the command words of the table, and no other word is legal.  The encoder and the decoder
agree on all of them in both directions. -/
def Obligations.LegalWordsAreTheFifteen : Prop :=
  (encode .dft = 0x01 ∧ encode .idft = 0x02 ∧ encode .cdft = 0x03 ∧ encode .r2p = 0x04 ∧
   encode .lpf = 0x05 ∧ encode .lpfBlackman = 0x15 ∧ encode .lpfCustom = 0x25 ∧
   encode .hpf = 0x06 ∧ encode .hpfBlackman = 0x16 ∧ encode .hpfCustom = 0x26 ∧
   encode .bpf = 0x07 ∧ encode .bpfBlackman = 0x17 ∧ encode .bpfCustom = 0x27 ∧
   encode .winHamming = 0x08 ∧ encode .winBlackman = 0x18) ∧
  (∀ (w : Word) (i : Instr), decode w = .ok i ↔ w = encode i)

/-- R74: every word that is not legal is rejected for the first failing test, in the spec's order, and
every other word decodes to the command with its two fields. -/
def Obligations.DecodeFollowsTheTestOrder : Prop :=
  ∀ w : Word,
    let zero := w.extractLsb' 6 58
    let opc := (w.extractLsb' 0 4).toNat
    let wsel := (w.extractLsb' 4 2).toNat
    (zero ≠ 0 → decode w = .error .reservedBits) ∧
    (zero = 0 → opc = 0 ∨ 9 ≤ opc → decode w = .error .badOpcode) ∧
    (zero = 0 → 1 ≤ opc → opc ≤ 4 → wsel ≠ 0 → decode w = .error .badWsel) ∧
    (zero = 0 → 5 ≤ opc → opc ≤ 7 → wsel = 3 → decode w = .error .badWsel) ∧
    (zero = 0 → opc = 8 → 2 ≤ wsel → decode w = .error .badWsel) ∧
    (zero = 0 → (1 ≤ opc ∧ opc ≤ 4 ∧ wsel = 0) ∨ (5 ≤ opc ∧ opc ≤ 7 ∧ wsel ≤ 2) ∨ (opc = 8 ∧ wsel ≤ 1) →
      ∃ i : Instr, decode w = .ok i ∧ i.opc.toNat = opc ∧ i.wsel.toNat = wsel)

/-- R82 and the vectors V-E1 to V-E16: a few words decode as the spec's worked encodings say. -/
def Obligations.WorkedEncodingsDecode : Prop :=
  decode 0x0000000000000001#64 = .ok .dft ∧
  decode 0x0000000000000015#64 = .ok .lpfBlackman ∧
  decode 0x0000000000000027#64 = .ok .bpfCustom ∧
  decode 0x0000000000000018#64 = .ok .winBlackman ∧
  decode 0x0000000000000035#64 = .error .badWsel ∧
  decode 0x0000000000000011#64 = .error .badWsel ∧
  decode 0x0000000000000045#64 = .error .reservedBits ∧
  decode 0x0000000000000000#64 = .error .badOpcode ∧
  decode 0x0000000000000009#64 = .error .badOpcode

/-! ### Steps and host transactions -/

/-- R93: a host write of a legal word to CMD stores the word and runs the command it decodes to, in the
same step; the host's next transaction is the one after it. -/
def Obligations.CommandWriteRunsTheDecodedCommand : Prop :=
  ∀ (s : State) (w : Word) (rest : List HostTxn) (i : Instr),
    s.script = .regWrite 0 w :: rest → decode w = .ok i →
    step s = exec i { s with script := rest, cmd := w }

/-- R215: the whole effect of a rejected CMD write, for words that do not decode and for commands
that fail a check: CMD holds the word, STATUS has DONE set, EVENM clear and one of the nine words, and
nothing else changes. -/
def Obligations.ErrorEntryWritesOnlyCmdAndStatus : Prop :=
  (∀ (s : State) (w : Word) (rest : List HostTxn) (c : Cause),
    s.script = .regWrite 0 w :: rest → decode w = .error c →
    step s = .next { s with script := rest, cmd := w, status := rejectedStatus c }) ∧
  (∀ (s t : State) (w : Word) (rest : List HostTxn),
    s.script = .regWrite 0 w :: rest → step s = .next t → statusEClass t.status ≠ 0 →
    t = { s with script := rest, cmd := w, status := t.status } ∧
    statusDone t.status = true ∧ statusEvenM t.status = false ∧ ∃ c, t.status = rejectedStatus c) ∧
  (rejectedStatus .lenZero = 0x15 ∧ rejectedStatus .lenLt2 = 0x25 ∧
   rejectedStatus .ratioRange = 0x39 ∧ rejectedStatus .cutoffOrder = 0x49 ∧
   rejectedStatus .regionBounds = 0x59 ∧ rejectedStatus .regionOverlap = 0x69 ∧
   rejectedStatus .badOpcode = 0x7D ∧ rejectedStatus .badWsel = 0x8D ∧
   rejectedStatus .reservedBits = 0x9D ∧ acceptedStatus false = 0x01 ∧ acceptedStatus true = 0x03)

/-- R106: no transaction a host can express stops the machine, whatever the state. -/
def Obligations.EveryExpressibleTransactionCompletes : Prop :=
  ∀ s : State, ScriptOk s → SafeStep s

/-- The model's choice (log 9): a buffer address of more than AW bits, which no host can express,
stops the step by name. -/
def Obligations.AddressBeyondThePortFaults : Prop :=
  ∀ (s : State) (a : Nat) (v : Word) (rest : List HostTxn), 2 ^ Config.params.aw ≤ a →
    (s.script = .bufRead a :: rest → step s = .fault .hostAddressOutsideBuffer) ∧
    (s.script = .bufWrite a v :: rest → step s = .fault .hostAddressOutsideBuffer)

/-- R90, R227 and the model's choice of an idle step (log 1): with no transaction to perform, nothing
changes. -/
def Obligations.NothingHappensBetweenTransactions : Prop :=
  ∀ s : State, s.script = [] → step s = .next s

/-- R91: RegRead returns the register's word and changes no state of the block. -/
def Obligations.RegReadReturnsTheRegister : Prop :=
  ∀ (s : State) (r : Fin 16) (rest : List HostTxn), s.script = .regRead r :: rest →
    step s = .next { s with
      script := rest
      returned := s.returned ++
        [[s.cmd, s.status, s.len, s.src0, s.src1, s.dst0, s.dst1, s.wtab, s.fs, s.fc0, s.fc1,
          capWord Config.params, 0, 0, 0, 0].getD r.val 0] }

/-- R92: a write to register 2 to 10 stores all 64 bits and changes no other register and no buffer
word; a write to STATUS, CAP or a reserved number changes nothing; a write to CMD is the command
step. -/
def Obligations.RegWriteStoresAllBits : Prop :=
  ∀ (s : State) (r : Fin 16) (v : Word) (rest : List HostTxn), s.script = .regWrite r v :: rest →
    (2 ≤ r.val ∧ r.val ≤ 10 → ∃ t, step s = .next t ∧ readReg Config.params t r = v ∧
      (∀ q : Fin 16, q ≠ r → readReg Config.params t q = readReg Config.params s q) ∧
      t.mem = s.mem ∧ t.script = rest ∧ t.returned = s.returned) ∧
    (r.val = 1 ∨ 11 ≤ r.val → step s = .next { s with script := rest }) ∧
    (r.val = 0 → step s = commandStep { s with script := rest } v)

/-- R21: a CMD write that ends leaves the word in CMD, legal or not, accepted or rejected. -/
def Obligations.CmdReadsBackTheWordWritten : Prop :=
  ∀ (s : State) (w : Word) (rest : List HostTxn), s.script = .regWrite 0 w :: rest →
    ∃ t, step s = .next t ∧ t.cmd = w

/-- R26: CAP holds AW in bits 7:0, the form of the complex transform in bit 8 and 0 above, and reads
the same in every state; a host write to it is ignored. -/
def Obligations.CapReportsTheBuild : Prop :=
  ∀ s : State,
    ((readReg Config.params s 11).extractLsb' 0 8).toNat = Config.params.aw ∧
    ((readReg Config.params s 11).getLsbD 8 = true ↔ Config.params.cdftForm = .canonical) ∧
    (readReg Config.params s 11).extractLsb' 9 55 = 0 ∧
    ∀ (v : Word) (rest : List HostTxn), s.script = .regWrite 11 v :: rest →
      step s = .next { s with script := rest }

/-- R94: BufRead returns the word at the address and changes no state of the block. -/
def Obligations.BufReadReturnsTheWord : Prop :=
  ∀ (s : State) (a : Nat) (rest : List HostTxn), a < 2 ^ Config.params.aw →
    s.script = .bufRead a :: rest →
    step s = .next { s with script := rest, returned := s.returned ++ [word s a] }

/-- R51, R95: BufWrite replaces the word at the address and changes no other word and no register.
The premise on memory is the model's invariant. -/
def Obligations.BufWriteReplacesOneWord : Prop :=
  ∀ (s : State) (a : Nat) (v : Word) (rest : List HostTxn), Memory.wf Config.params s.mem = true →
    a < 2 ^ Config.params.aw → s.script = .bufWrite a v :: rest →
    ∃ t, step s = .next t ∧ word t a = v ∧ (∀ b, b ≠ a → word t b = word s b) ∧
      t = { s with script := rest, mem := { s.mem with cells := t.mem.cells } }

/-- R36: the state right after reset, as the host reads it: registers 0 to 10 and 12 to 15 are 0, CAP
reads its constant (whose fields are `CapReportsTheBuild`'s), and every buffer word is `BUF_INIT`'s.
The reset count that `BUF_INIT` is asked at is the model's own field (log 3); no value of it is used. -/
def Obligations.ResetStateReadsZero : Prop :=
  (∀ r : Fin 16, r.val ≠ 11 → readReg Config.params State.reset r = 0) ∧
  (∀ s : State, readReg Config.params s 11 = readReg Config.params State.reset 11) ∧
  (∀ a, word State.reset a = Config.BUF_INIT State.reset.mem.resets a)

/-- R96, R240: the Reset transaction puts every register in its reset value from any state and leaves
buffer memory with unspecified content; it issues no command.  That the host's side (`script`,
`returned`) goes on is the model's choice (log 11). -/
def Obligations.ResetTransactionClearsTheBlock : Prop :=
  ∀ (s : State) (rest : List HostTxn), s.script = .reset :: rest →
    ∃ t, step s = .next t ∧
      (∀ r : Fin 16, readReg Config.params t r = readReg Config.params State.reset r) ∧
      (∃ n, ∀ a, word t a = Config.BUF_INIT n a) ∧
      t.script = rest ∧ t.returned = s.returned

/-! ### Invariants and whole-machine rules -/

/-- The reset state meets the invariant. -/
def Obligations.ResetMeetsTheInvariant : Prop := Inv State.reset

/-- Every step keeps the invariant, from every state that meets it: buffer memory stays in canonical
form inside its 2^AW words, and STATUS holds only words the spec gives it (R22, R211, U11: no other
class, cause or reserved bit ever appears). -/
def Obligations.StepKeepsTheInvariant : Prop :=
  ∀ s t : State, Inv s → step s = .next t → Inv t

/-- R28, R21, R36: no command writes an operand register or CMD, and none ends anywhere but in a next
state; it changes at most STATUS and buffer memory, and buffer memory only in its output regions
(R56). -/
def Obligations.CommandsWriteOnlyStatusAndOutputs : Prop :=
  ∀ (i : Instr) (s : State), ∃ t, exec i s = .next t ∧ OnlyResults s t ∧ OnlyOutputsWritten i s t

/-- R97, R213: STATUS at the end of a command tells the first failing check in the spec's order, or
that the command was accepted, with EVENM exactly for a filter or WIN command of even length. -/
def Obligations.StatusTellsTheFirstFailure : Prop :=
  ∀ (i : Instr) (s t : State), exec i s = .next t →
    (¬ LengthOk i s → t.status = if s.len.toNat < 2 ∧ (i = .dft ∨ i = .idft ∨ i = .cdft) then 0x25 else 0x15) ∧
    (LengthOk i s → ¬ RatiosOk i s → t.status = 0x39) ∧
    (LengthOk i s → RatiosOk i s → ¬ OrderOk i s → t.status = 0x49) ∧
    (LengthOk i s → RatiosOk i s → OrderOk i s → ¬ RegionsFit i s → t.status = 0x59) ∧
    (LengthOk i s → RatiosOk i s → OrderOk i s → RegionsFit i s → ¬ RegionsApart i s →
      t.status = 0x69) ∧
    (Accepted i s →
      t.status = if s.len.toNat % 2 = 0 ∧ i ≠ .dft ∧ i ≠ .idft ∧ i ≠ .cdft ∧ i ≠ .r2p then 0x03 else 0x01)

/-- R101: a transform of length below 2 and any other command of length 0 is rejected, whatever else
is wrong, with no other effect. -/
def Obligations.ShortLengthsAreRejected : Prop :=
  (∀ (i : Instr) (s : State), i = .dft ∨ i = .idft ∨ i = .cdft → s.len.toNat < 2 →
    exec i s = .next { s with status := 0x25 }) ∧
  (∀ (i : Instr) (s : State), i ≠ .dft → i ≠ .idft → i ≠ .cdft → s.len.toNat = 0 →
    exec i s = .next { s with status := 0x15 })

/-- R191: a filter command whose cutoff ratio is not strictly between 0 and 0.5 is rejected with
RATIO_RANGE, and a band-pass whose cutoffs are not in order with CUTOFF_ORDER, with no other effect. -/
def Obligations.BadCutoffsAreRejected : Prop :=
  (∀ (i : Instr) (s : State), IsSingleCutoff i → 0 < s.len.toNat →
    ¬ (flt ZERO (fdiv Config.params s.fc0 s.fs) = true ∧
       flt (fdiv Config.params s.fc0 s.fs) HALF = true) →
    exec i s = .next { s with status := 0x39 }) ∧
  (∀ (i : Instr) (s : State), IsBandPass i → 0 < s.len.toNat →
    ¬ (flt ZERO (fdiv Config.params s.fc0 s.fs) = true ∧
       flt (fdiv Config.params s.fc0 s.fs) HALF = true) ∨
    ¬ (flt ZERO (fdiv Config.params s.fc1 s.fs) = true ∧
       flt (fdiv Config.params s.fc1 s.fs) HALF = true) →
    exec i s = .next { s with status := 0x39 }) ∧
  (∀ (i : Instr) (s : State), IsBandPass i → 0 < s.len.toNat →
    RatioOk s.fc0 s.fs → RatioOk s.fc1 s.fs → flt s.fc0 s.fc1 = false →
    exec i s = .next { s with status := 0x49 })

/-- R103, second sentence: the same command issued again with no host write between gives the same
`BUF` and STATUS, so the same state.  The premise on memory is the model's invariant. -/
def Obligations.CommandsAreIdempotent : Prop :=
  ∀ (i : Instr) (s t : State), Memory.wf Config.params s.mem = true →
    exec i s = .next t → exec i t = .next t

/-- R103, first sentence: two states with the same operand registers and the same words in the input
regions get the same STATUS and, when the command is accepted, the same words in the output regions.
The premises on memory are the model's invariant. -/
def Obligations.ResultsDependOnlyOnOperands : Prop :=
  ∀ (i : Instr) (s s' t t' : State),
    s.len = s'.len → s.src0 = s'.src0 → s.src1 = s'.src1 → s.dst0 = s'.dst0 → s.dst1 = s'.dst1 →
    s.wtab = s'.wtab → s.fs = s'.fs → s.fc0 = s'.fc0 → s.fc1 = s'.fc1 →
    Memory.wf Config.params s.mem = true → Memory.wf Config.params s'.mem = true →
    (∀ r ∈ inputRegions i s, ∀ j, j < r.2 → word s (r.1 + j) = word s' (r.1 + j)) →
    exec i s = .next t → exec i s' = .next t' →
    t.status = t'.status ∧
    (Accepted i s → ∀ r ∈ outputRegions i s, ∀ j, j < r.2 → word t (r.1 + j) = word t' (r.1 + j))

/-- R32, R216: no command reads a flag, so a command after a rejection is executed exactly as if the
rejected command had never been issued. -/
def Obligations.NoCommandReadsStatus : Prop :=
  ∀ (i : Instr) (s : State) (w : Word), exec i { s with status := w } = exec i s

/-- R100, last sentence: a register outside a command's row is not read by it.  Changing it changes
nothing else in the result. -/
def Obligations.RegistersOutsideTheRowAreNotRead : Prop :=
  ∀ (s t : State) (v : Word),
    (∀ i : Instr, i ≠ .lpfCustom → i ≠ .hpfCustom → i ≠ .bpfCustom → exec i s = .next t →
      exec i { s with wtab := v } = .next { t with wtab := v }) ∧
    (∀ i : Instr, ¬ IsBandPass i → exec i s = .next t →
      exec i { s with fc1 := v } = .next { t with fc1 := v }) ∧
    (∀ i : Instr, ¬ IsBandPass i → ¬ IsSingleCutoff i → exec i s = .next t →
      exec i { s with fs := v } = .next { t with fs := v } ∧
      exec i { s with fc0 := v } = .next { t with fc0 := v }) ∧
    (∀ i : Instr, ¬ IsTransform i → i ≠ .r2p → exec i s = .next t →
      exec i { s with src0 := v } = .next { t with src0 := v } ∧
      exec i { s with src1 := v } = .next { t with src1 := v } ∧
      exec i { s with dst1 := v } = .next { t with dst1 := v }) ∧
    (exec .dft s = .next t → exec .dft { s with src1 := v } = .next { t with src1 := v }) ∧
    (exec .idft s = .next t → exec .idft { s with dst1 := v } = .next { t with dst1 := v })

/-! ### What each command computes -/

/-- DFT (R151, R150, R124): an accepted `dft` writes, for every bin k below K = N div 2, the two
sums over the samples in ascending order, the imaginary one by subtraction from +0; STATUS is 0x01,
and nothing else changes.  The premise on memory is the model's invariant. -/
def Obligations.DftComputesEveryBin : Prop :=
  ∀ s : State, Memory.wf Config.params s.mem = true → Accepted .dft s →
    ∃ t, exec .dft s = .next t ∧ OnlyResults s t ∧ OnlyOutputsWritten .dft s t ∧ t.status = 0x01 ∧
      ∀ k, k < s.len.toNat / 2 →
        word t (s.dst0.toNat + k) =
          (List.range s.len.toNat).foldl (fun re i =>
            fadd Config.params re (fmul Config.params (word s (s.src0.toNat + i))
              (Config.FCOS (angleOf Config.params k i s.len.toNat)))) ZERO ∧
        word t (s.dst1.toNat + k) =
          (List.range s.len.toNat).foldl (fun im i =>
            fsub Config.params im (fmul Config.params (word s (s.src0.toNat + i))
              (Config.FSIN (angleOf Config.params k i s.len.toNat)))) ZERO

/-- IDFT (R155, R154, R156): an accepted `idft` writes, for every sample i below N, the sum over the
bins in ascending order of the pre-scaled coefficients' two products, added to each other first; bin 0
is divided by N and -N, the others by K and -K. -/
def Obligations.IdftComputesEverySample : Prop :=
  ∀ s : State, Memory.wf Config.params s.mem = true → Accepted .idft s →
    ∃ t, exec .idft s = .next t ∧ OnlyResults s t ∧ OnlyOutputsWritten .idft s t ∧ t.status = 0x01 ∧
      ∀ i, i < s.len.toNat →
        word t (s.dst0.toNat + i) =
          (List.range (s.len.toNat / 2)).foldl (fun acc k =>
            let d := if k = 0 then i2f (s.len.toNat : Int) else i2f ((s.len.toNat / 2 : Nat) : Int)
            let rs := fdiv Config.params (word s (s.src0.toNat + k)) d
            let is := fdiv Config.params (word s (s.src1.toNat + k)) (fneg d)
            let angle := angleOf Config.params k i s.len.toNat
            fadd Config.params acc (fadd Config.params (fmul Config.params rs (Config.FCOS angle))
              (fmul Config.params is (Config.FSIN angle)))) ZERO

/-- CDFT (R171, R170): an accepted `cdft` writes all N bins; the real output is the same in both
forms, the imaginary one is the form's own. -/
def Obligations.CdftComputesEveryBin : Prop :=
  ∀ s : State, Memory.wf Config.params s.mem = true → Accepted .cdft s →
    ∃ t, exec .cdft s = .next t ∧ OnlyResults s t ∧ OnlyOutputsWritten .cdft s t ∧ t.status = 0x01 ∧
      ∀ k, k < s.len.toNat →
        (let cosOf := fun i => Config.FCOS (angleOf Config.params k i s.len.toNat)
         let sinOf := fun i => Config.FSIN (angleOf Config.params k i s.len.toNat)
         let a := fun i => word s (s.src0.toNat + i)
         let b := fun i => word s (s.src1.toNat + i)
         let p := Config.params
         word t (s.dst0.toNat + k) =
          (List.range s.len.toNat).foldl (fun re i =>
            fadd p re (fadd p (fmul p (a i) (cosOf i)) (fmul p (b i) (sinOf i)))) ZERO ∧
         (p.cdftForm = .reference → word t (s.dst1.toNat + k) =
          (List.range s.len.toNat).foldl (fun im i =>
            fadd p im (fsub p (fmul p (b i) (sinOf i)) (fmul p (b i) (cosOf i)))) ZERO) ∧
         (p.cdftForm = .canonical → word t (s.dst1.toNat + k) =
          (List.range s.len.toNat).foldl (fun im i =>
            fadd p im (fsub p (fmul p (b i) (cosOf i)) (fmul p (a i) (sinOf i)))) ZERO))

/-- R2P (R180): an accepted `r2p` writes magnitude and phase of every pair; the magnitude and the two
sign tests use the original real part, only the quotient uses 10^-20 for a zero, and the regions it
reads are unchanged. -/
def Obligations.RectToPolarConvertsEveryPair : Prop :=
  ∀ s : State, Memory.wf Config.params s.mem = true → Accepted .r2p s →
    ∃ t, exec .r2p s = .next t ∧ OnlyResults s t ∧ OnlyOutputsWritten .r2p s t ∧ t.status = 0x01 ∧
      ∀ k, k < s.len.toNat →
        (let r := word s (s.src0.toNat + k)
         let m := word s (s.src1.toNat + k)
         let p := Config.params
         let base := Config.FATAN (fdiv p m (if feq r ZERO then TINY else r))
         word t (s.src0.toNat + k) = r ∧ word t (s.src1.toNat + k) = m ∧
         word t (s.dst0.toNat + k) = fsqrt p (fadd p (fmul p r r) (fmul p m m)) ∧
         (flt r ZERO = true → flt m ZERO = true → word t (s.dst1.toNat + k) = fsub p base PI) ∧
         (flt r ZERO = true → fge m ZERO = true → word t (s.dst1.toNat + k) = fadd p base PI) ∧
         (flt r ZERO = false ∨ (flt m ZERO = false ∧ fge m ZERO = false) →
           word t (s.dst1.toNat + k) = base))

/-- LPF (R193, R190): an accepted `lpf`, `lpf.blackman` or `lpf.custom` writes the low-pass kernel of
the rounded ratio, the centre tap without a window factor, and EVENM tells an even length. -/
def Obligations.LpfWritesTheLowPassKernel : Prop :=
  ∀ (i : Instr) (w : WSel) (s : State),
    (i = .lpf ∧ w = .hamming) ∨ (i = .lpfBlackman ∧ w = .blackman) ∨ (i = .lpfCustom ∧ w = .custom) →
    Memory.wf Config.params s.mem = true → Accepted i s →
    ∃ t, exec i s = .next t ∧ OnlyResults s t ∧ OnlyOutputsWritten i s t ∧ t.status = filterStatus s ∧
      ∀ j, j < s.len.toNat →
        word t (s.dst0.toNat + j) =
          lowPassValue w s (fdiv Config.params s.fc0 s.fs) s.len.toNat j

/-- HPF (R194, R192): an accepted `hpf`, `hpf.blackman` or `hpf.custom` writes the low-pass kernel
negated, with 1 added at the centre tap. -/
def Obligations.HpfWritesTheInvertedKernel : Prop :=
  ∀ (i : Instr) (w : WSel) (s : State),
    (i = .hpf ∧ w = .hamming) ∨ (i = .hpfBlackman ∧ w = .blackman) ∨ (i = .hpfCustom ∧ w = .custom) →
    Memory.wf Config.params s.mem = true → Accepted i s →
    ∃ t, exec i s = .next t ∧ OnlyResults s t ∧ OnlyOutputsWritten i s t ∧ t.status = filterStatus s ∧
      ∀ j, j < s.len.toNat →
        word t (s.dst0.toNat + j) =
          invertedValue s.len.toNat j
            (lowPassValue w s (fdiv Config.params s.fc0 s.fs) s.len.toNat j)

/-- BPF (R195): an accepted `bpf`, `bpf.blackman` or `bpf.custom` writes the inverted sum of the lower
low-pass kernel and the inverted upper one, with a rounding at every addition. -/
def Obligations.BpfWritesTheBandPassKernel : Prop :=
  ∀ (i : Instr) (w : WSel) (s : State),
    (i = .bpf ∧ w = .hamming) ∨ (i = .bpfBlackman ∧ w = .blackman) ∨ (i = .bpfCustom ∧ w = .custom) →
    Memory.wf Config.params s.mem = true → Accepted i s →
    ∃ t, exec i s = .next t ∧ OnlyResults s t ∧ OnlyOutputsWritten i s t ∧ t.status = filterStatus s ∧
      ∀ j, j < s.len.toNat →
        word t (s.dst0.toNat + j) =
          invertedValue s.len.toNat j
            (fadd Config.params
              (lowPassValue w s (fdiv Config.params s.fc0 s.fs) s.len.toNat j)
              (invertedValue s.len.toNat j
                (lowPassValue w s (fdiv Config.params s.fc1 s.fs) s.len.toNat j)))

/-- WIN (R144, R141, R142): an accepted `win.hamming` or `win.blackman` writes the window's weight at
every tap index. -/
def Obligations.WinTabulatesTheWindow : Prop :=
  ∀ (i : Instr) (w : WSel) (s : State),
    (i = .winHamming ∧ w = .hamming) ∨ (i = .winBlackman ∧ w = .blackman) →
    Memory.wf Config.params s.mem = true → Accepted i s →
    ∃ t, exec i s = .next t ∧ OnlyResults s t ∧ OnlyOutputsWritten i s t ∧ t.status = filterStatus s ∧
      ∀ j, j < s.len.toNat → word t (s.dst0.toNat + j) = weight w s j s.len.toNat

/-! ### Properties of the commands -/

/-- R196: away from the centre tap the high-pass kernel of the same operands is the low-pass kernel
negated, so a finite tap and its counterpart add to +0; at the centre it is 1 minus the low-pass tap.
(R196 says +0 for every tap that is not a NaN; for an infinite tap the sum is a NaN by R112, so the
statement asks for a finite one: log 19.) -/
def Obligations.SpectralInversionIdentity : Prop :=
  ∀ (lo hi : Instr) (s tl th : State),
    (lo = .lpf ∧ hi = .hpf) ∨ (lo = .lpfBlackman ∧ hi = .hpfBlackman) ∨
      (lo = .lpfCustom ∧ hi = .hpfCustom) →
    Memory.wf Config.params s.mem = true → Accepted lo s →
    exec lo s = .next tl → exec hi s = .next th →
    (∀ j, j < s.len.toNat → j ≠ s.len.toNat / 2 →
      word th (s.dst0.toNat + j) = fneg (word tl (s.dst0.toNat + j)) ∧
      (isFinite (word tl (s.dst0.toNat + j)) = true →
        fadd Config.params (word th (s.dst0.toNat + j)) (word tl (s.dst0.toNat + j)) = ZERO)) ∧
    word th (s.dst0.toNat + s.len.toNat / 2) =
      fsub Config.params ONE (word tl (s.dst0.toNat + s.len.toNat / 2))

/-- R181, closing paragraph: the Magnitude output is never negative and never -0. -/
def Obligations.MagnitudeIsNeverNegative : Prop :=
  ∀ s t : State, Memory.wf Config.params s.mem = true → Accepted .r2p s → exec .r2p s = .next t →
    ∀ k, k < s.len.toNat →
      isNaN (word t (s.dst0.toNat + k)) = true ∨ signOf (word t (s.dst0.toNat + k)) = false

/-- V-F8 (R140, R143, R190): a caller's table that holds the weights of a built-in window gives the
very state the built-in window gives, for LPF, HPF and BPF. -/
def Obligations.TabulatedWindowEqualsBuiltIn : Prop :=
  ∀ s : State, RegionsFit .lpfCustom s → RegionsApart .lpfCustom s →
    ((∀ j, j < s.len.toNat → word s (s.wtab.toNat + j) = weight .hamming s j s.len.toNat) →
      exec .lpfCustom s = exec .lpf s ∧ exec .hpfCustom s = exec .hpf s ∧
      exec .bpfCustom s = exec .bpf s) ∧
    ((∀ j, j < s.len.toNat → word s (s.wtab.toNat + j) = weight .blackman s j s.len.toNat) →
      exec .lpfCustom s = exec .lpfBlackman s ∧ exec .hpfCustom s = exec .hpfBlackman s ∧
      exec .bpfCustom s = exec .bpfBlackman s)

/-- R152: under P-ZERO and the default angle, bin 0 of DFT over N samples is the sequential sum of the
samples, and its imaginary part is +0 for finite samples and a NaN as soon as one is not finite. -/
def Obligations.DcBinIsTheSequentialSum : Prop :=
  ∀ (p : Params) (x : List Word), PZero p → p.angle = .standard →
    2 ≤ x.length → x.length ≤ 2 ^ 32 →
    ((∀ v ∈ x, isNaN v = false) → (dftBin p x x.length 0).1 = x.foldl (fadd p) ZERO) ∧
    ((∀ v ∈ x, isFinite v = true) → (dftBin p x x.length 0).2 = ZERO) ∧
    ((∃ v ∈ x, isFinite v = false) → isNaN (dftBin p x x.length 0).2 = true)

/-- R151, corner cases: one NaN sample makes every bin of DFT a NaN, real and imaginary. -/
def Obligations.NanSampleMakesEveryBinNan : Prop :=
  ∀ (p : Params) (x : List Word) (k : Nat), (∃ v ∈ x, isNaN v = true) →
    isNaN (dftBin p x x.length k).1 = true ∧ isNaN (dftBin p x x.length k).2 = true

/-- R171, corner cases: in the REFERENCE form the imaginary output does not depend on the real
input. -/
def Obligations.ReferenceImaginaryIgnoresRealInput : Prop :=
  ∀ (p : Params) (a a' b : List Word) (n k : Nat), p.cdftForm = .reference →
    (cdftBin p a b n k).2 = (cdftBin p a' b n k).2

/-- R171, corner cases: in the REFERENCE form, under P-RANGE and the default angle, an all-zero
imaginary input gives +0 in every bin's imaginary output, whatever the real input is. -/
def Obligations.ReferenceRealInputGivesZeroImaginary : Prop :=
  ∀ (p : Params) (a b : List Word) (n k : Nat), p.cdftForm = .reference → p.angle = .standard →
    PRange p → 0 < n → n ≤ 2 ^ 32 → k < n → b.length = n → (∀ v ∈ b, isZero v = true) →
    (cdftBin p a b n k).2 = ZERO

/-- R197, last sentence, with P-RANGE besides P-ODD so that the sine is not a NaN (R122 leaves the word
of a NaN open): a symmetric caller-supplied table gives a symmetric low-pass kernel for odd M. -/
def Obligations.SymmetricTableGivesSymmetricKernel : Prop :=
  ∀ (p : Params) (c : Word) (m j : Nat) (tab : List Word), POdd p → PRange p →
    flt ZERO c = true → flt c HALF = true → m % 2 = 1 → m ≤ 2 ^ 32 → tab.length = m → j < m →
    (∀ i, i < m → tab.getD i ZERO = tab.getD (m - 1 - i) ZERO) →
    (lowPassKernel p c m .custom tab).getD j ZERO =
      (lowPassKernel p c m .custom tab).getD (m - 1 - j) ZERO

/-- R141, R142, corner cases: under P-ZERO the first weight of each built-in window is the same word
for every length; Hamming's is 0.08000000000000002 and Blackman's is a small negative number. -/
def Obligations.FirstWindowWeights : Prop :=
  ∀ (p : Params) (m : Nat), PZero p → 0 < m → m ≤ 2 ^ 32 →
    hammingWeight p 0 m = 0x3FB47AE147AE147C ∧ blackmanWeight p 0 m = 0xBC70000000000000

/-- R181, the rows with a zero imaginary part: under P-ZERO the phase of a negative real number is
exactly PI for both zeros, and that of a positive real number, and of (0, 0), is the imaginary zero
itself. -/
def Obligations.PhaseOnTheRealAxis : Prop :=
  ∀ (p : Params) (r m : Word), PZero p → isZero m = true →
    (flt r ZERO = true → polarPhase p r m = PI) ∧
    (flt ZERO r = true → polarPhase p r m = m) ∧
    (isZero r = true → polarPhase p r m = m ∧ polarMagnitude p r m = ZERO)

/-- R181, closing paragraph: a phase that is not a NaN lies from -PI to PI.  R181 names P-RANGE and
P-SIGN; the statement asks for P-ZERO as well, for a negative real part with a -0 imaginary part, and
for P-NAN, for a quotient that is a NaN (log 19). -/
def Obligations.PhaseStaysWithinPi : Prop :=
  ∀ (p : Params) (r m : Word), PZero p → PNan p → PRange p → PSign p →
    isNaN (polarPhase p r m) = false →
    fge (polarPhase p r m) (fneg PI) = true ∧ fge PI (polarPhase p r m) = true

/-- R181, the row of a NaN: under P-NAN a NaN in either part makes magnitude and phase NaNs. -/
def Obligations.NanPairGivesNanPolar : Prop :=
  ∀ (p : Params) (r m : Word), PNan p → isNaN r = true ∨ isNaN m = true →
    isNaN (polarMagnitude p r m) = true ∧ isNaN (polarPhase p r m) = true

/-- R181 and R180, an infinite quotient: under P-ATANINF the phase is half of PI with the sign of the
imaginary part, for every real part; for a negative one the correction by PI is exact and gives the same
word. -/
def Obligations.InfiniteQuotientGivesHalfPi : Prop :=
  ∀ (p : Params) (r m : Word), PAtanInf p →
    isInf (fdiv p m (if feq r ZERO then TINY else r)) = true →
    polarPhase p r m = if signOf m then fneg HALF_PI else HALF_PI

/-! ### Numerics -/

/-- R111: `fadd`, `fmul` and `fdiv` of finite arguments round the exact result once, to nearest with
ties to even, and carry its sign; results too large become infinities. -/
def Obligations.ArithmeticRoundsToNearestEven : Prop :=
  ∀ (p : Params) (a b : Word), isFinite a = true → isFinite b = true →
    (scaled a + scaled b ≠ 0 →
      NearestEven (scaled a + scaled b).natAbs 1 (fadd p a b) ∧
      signOf (fadd p a b) = decide (scaled a + scaled b < 0)) ∧
    (NearestEven (magnitude a * magnitude b) (2 ^ 1074) (fmul p a b) ∧
      signOf (fmul p a b) = (signOf a != signOf b)) ∧
    (isZero b = false →
      NearestEven (magnitude a * 2 ^ 1074) (magnitude b) (fdiv p a b) ∧
      signOf (fdiv p a b) = (signOf a != signOf b))

/-- R111, R114: `fsqrt` of a positive finite word is the positive finite word nearest to the square
root: the root is not above the middle between it and any larger word, nor below the middle between it
and any smaller one.  The zeros and +inf are their own roots, and a NaN or a negative word that is not a
zero, -inf among them, gives a NaN. -/
def Obligations.SquareRootIsCorrectlyRounded : Prop :=
  ∀ (p : Params) (a : Word),
    (isFinite a = true → isZero a = false → signOf a = false →
      isFinite (fsqrt p a) = true ∧ signOf (fsqrt p a) = false ∧
      ∀ y : Word, isFinite y = true →
        (magnitude (fsqrt p a) < magnitude y →
          4 * (magnitude a * 2 ^ 1074) ≤ (magnitude (fsqrt p a) + magnitude y) ^ 2) ∧
        (magnitude y < magnitude (fsqrt p a) →
          (magnitude (fsqrt p a) + magnitude y) ^ 2 ≤ 4 * (magnitude a * 2 ^ 1074))) ∧
    (isZero a = true → fsqrt p a = a) ∧
    (isInf a = true → signOf a = false → fsqrt p a = a) ∧
    (isNaN a = true → isNaN (fsqrt p a) = true) ∧
    (isZero a = false → signOf a = true → isNaN (fsqrt p a) = true)

/-- R112: the special cases of the four operations. -/
def Obligations.SpecialCasesOfTheOperations : Prop :=
  ∀ (p : Params) (a b : Word),
    -- a NaN argument gives a NaN
    (isNaN a = true ∨ isNaN b = true →
      isNaN (fadd p a b) = true ∧ isNaN (fsub p a b) = true ∧ isNaN (fmul p a b) = true ∧
      isNaN (fdiv p a b) = true) ∧
    (isNaN a = true → isNaN (fsqrt p a) = true) ∧
    -- fadd
    (isInf a = true → isInf b = true → signOf a ≠ signOf b → isNaN (fadd p a b) = true) ∧
    (isInf a = true → isFinite b = true → fadd p a b = a ∧ fadd p b a = a) ∧
    (isZero a = true → isZero b = true → signOf a ≠ signOf b → fadd p a b = ZERO) ∧
    (isFinite a = true → isFinite b = true → isZero a = false → scaled a + scaled b = 0 →
      fadd p a b = ZERO) ∧
    (fadd p 0x8000000000000000 0x8000000000000000 = 0x8000000000000000) ∧
    (fadd p ZERO ZERO = ZERO) ∧
    (isNaN a = false → isZero a = false → isZero b = true → fadd p a b = a ∧ fadd p b a = a) ∧
    -- fsub
    (fsub p a b = fadd p a (fneg b)) ∧
    -- fmul
    (isZero a = true → isInf b = true → isNaN (fmul p a b) = true ∧ isNaN (fmul p b a) = true) ∧
    (isZero a = true → isFinite b = true →
      (isZero (fmul p a b) = true ∧ signOf (fmul p a b) = (signOf a != signOf b)) ∧
      (isZero (fmul p b a) = true ∧ signOf (fmul p b a) = (signOf a != signOf b))) ∧
    (isNaN (fmul p a b) = false → signOf (fmul p a b) = (signOf a != signOf b)) ∧
    -- fdiv
    (isNaN (fdiv p a b) = false → signOf (fdiv p a b) = (signOf a != signOf b)) ∧
    (isZero a = true → isZero b = true → isNaN (fdiv p a b) = true) ∧
    (isInf a = true → isInf b = true → isNaN (fdiv p a b) = true) ∧
    (isFinite a = true → isZero a = false → isZero b = true → isInf (fdiv p a b) = true) ∧
    (isFinite a = true → isInf b = true → isZero (fdiv p a b) = true) ∧
    (isZero a = true → isNaN b = false → isZero b = false → isZero (fdiv p a b) = true)

/-- R115: comparisons are those of the values, false for a NaN, and the two zeros are equal.  A finite
value lies between the two infinities, and an infinity is equal to itself alone. -/
def Obligations.ComparisonsFollowTheValues : Prop :=
  (∀ a b : Word, isNaN a = true ∨ isNaN b = true →
    flt a b = false ∧ fge a b = false ∧ feq a b = false) ∧
  (∀ a b : Word, isFinite a = true → isFinite b = true →
    (flt a b = true ↔ scaled a < scaled b) ∧ (fge a b = true ↔ scaled b ≤ scaled a) ∧
    (feq a b = true ↔ scaled a = scaled b)) ∧
  (∀ a b : Word, isZero a = true → isZero b = true →
    feq a b = true ∧ flt a b = false ∧ fge a b = true) ∧
  (∀ a b : Word, isFinite a = true → isInf b = true →
    (feq a b = false ∧ feq b a = false) ∧
    (signOf b = false →
      flt a b = true ∧ fge b a = true ∧ flt b a = false ∧ fge a b = false) ∧
    (signOf b = true →
      flt b a = true ∧ fge a b = true ∧ flt a b = false ∧ fge b a = false)) ∧
  (∀ a b : Word, isInf a = true → isInf b = true →
    (feq a b = true ↔ signOf a = signOf b) ∧
    (flt a b = true ↔ signOf a = true ∧ signOf b = false) ∧
    (fge a b = true ↔ signOf a = false ∨ signOf b = true))

/-- R113: `fneg` inverts bit 63 and leaves every other bit. -/
def Obligations.FnegInvertsOnlyTheSign : Prop :=
  ∀ (a : Word) (j : Nat), j < 64 →
    (fneg a).getLsbD j = if j = 63 then !a.getLsbD j else a.getLsbD j

/-- R116: `i2f` is exact for every integer the block converts, and `i2f(0)` is +0. -/
def Obligations.IntegerConversionIsExact : Prop :=
  (∀ n : Int, n.natAbs ≤ 2 ^ 53 → isFinite (i2f n) = true ∧ scaled (i2f n) = n * 2 ^ 1074) ∧
  i2f 0 = ZERO

/-- R119, consequences: the default angle is +0 for bin 0 and for sample 0. -/
def Obligations.DefaultAngleIsZeroOnTheAxes : Prop :=
  ∀ (p : Params) (k i n : Nat), p.angle = .standard → 0 < n → n ≤ 2 ^ 32 → k < n → i < n →
    angleOf p 0 i n = ZERO ∧ angleOf p k 0 n = ZERO

/-- R156 (c): dividing by the negated divisor is negating the quotient, for every quotient that is not
a NaN. -/
def Obligations.NegatedDivisorNegatesTheQuotient : Prop :=
  ∀ (p : Params) (a d : Word), isNaN (fdiv p a d) = false → fdiv p a (fneg d) = fneg (fdiv p a d)
end

