-- ==== Sys2Proof/Laws/Memory.lean ====
section
/-! SUPPORT. Buffer memory: a read after a write gives the word written, a write leaves every other
word alone, every operation keeps the canonical form, and two memories in canonical form that read the
same are the same data. -/

namespace Sys2Proof.Machine

/-! ### Cells -/

/-- An address below every listed one is not listed. -/
theorem lookupCell_none_of_low {init : Nat → Word} {bound low : Nat} {cells : List (Nat × Word)}
    (h : cellsOk init bound low cells = true) {a : Nat} (ha : a < low) : lookupCell cells a = none := by
  induction cells generalizing low with
  | nil => rfl
  | cons c rest ih =>
    obtain ⟨b, w⟩ := c
    simp only [cellsOk, Bool.and_eq_true, decide_eq_true_eq] at h
    have hab : a ≠ b := by omega
    simp only [lookupCell, if_neg hab]
    exact ih h.2 (by omega)

/-- A lower starting point keeps the canonical form. -/
theorem cellsOk_lower {init : Nat → Word} {bound low low' : Nat} {cells : List (Nat × Word)}
    (h : cellsOk init bound low cells = true) (hl : low' ≤ low) :
    cellsOk init bound low' cells = true := by
  cases cells with
  | nil => rfl
  | cons c rest =>
    obtain ⟨b, w⟩ := c
    simp only [cellsOk, Bool.and_eq_true, decide_eq_true_eq] at h ⊢
    exact ⟨⟨⟨by omega, h.1.1.2⟩, h.1.2⟩, h.2⟩

/-- A write leaves every other address's listing alone. -/
theorem lookupCell_setCell_ne (u : Word) (a : Nat) (v : Word) (cells : List (Nat × Word)) {b : Nat}
    (hb : b ≠ a) : lookupCell (setCell u a v cells) b = lookupCell cells b := by
  induction cells with
  | nil =>
    simp only [setCell]
    split <;> simp [lookupCell, hb]
  | cons c rest ih =>
    obtain ⟨k, w⟩ := c
    simp only [setCell]
    split
    · split <;> simp [lookupCell, hb]
    · split
      · next h =>
        subst h
        split <;> simp [lookupCell, hb]
      · simp only [lookupCell, ih]

/-- The listing of an address after a write to it: absent exactly when the word is what the address
reads as unlisted. -/
theorem lookupCell_setCell_self {init : Nat → Word} {bound low : Nat} {cells : List (Nat × Word)}
    (h : cellsOk init bound low cells = true) (a : Nat) (v : Word) :
    lookupCell (setCell (init a) a v cells) a = if v = init a then none else some v := by
  induction cells generalizing low with
  | nil => simp only [setCell]; split <;> simp [lookupCell]
  | cons c rest ih =>
    obtain ⟨k, w⟩ := c
    have hc := h
    simp only [cellsOk, Bool.and_eq_true, decide_eq_true_eq] at h
    simp only [setCell]
    split
    · next hlt =>
      split
      · have hne : a ≠ k := by omega
        simp only [lookupCell, if_neg hne]
        exact lookupCell_none_of_low h.2 (by omega)
      · simp [lookupCell]
    · split
      · next hk =>
        subst hk
        split
        · exact lookupCell_none_of_low h.2 (by omega)
        · simp [lookupCell]
      · next hne =>
        simp only [lookupCell, if_neg hne]
        exact ih h.2

/-- A write keeps the canonical form. -/
theorem cellsOk_setCell {init : Nat → Word} {bound low : Nat} {cells : List (Nat × Word)}
    (h : cellsOk init bound low cells = true) {a : Nat} (hlow : low ≤ a) (ha : a < bound) (v : Word) :
    cellsOk init bound low (setCell (init a) a v cells) = true := by
  induction cells generalizing low with
  | nil =>
    simp only [setCell]
    split
    · rfl
    · next hv => simp [cellsOk, hlow, ha, hv]
  | cons c rest ih =>
    obtain ⟨k, w⟩ := c
    have hc := h
    simp only [cellsOk, Bool.and_eq_true, decide_eq_true_eq, bne_iff_ne, ne_eq] at h
    simp only [setCell]
    split
    · next hlt =>
      split
      · exact hc
      · next hv =>
        simp only [cellsOk, Bool.and_eq_true, decide_eq_true_eq, bne_iff_ne, ne_eq]
        exact ⟨⟨⟨hlow, ha⟩, hv⟩, ⟨⟨by omega, h.1.1.2⟩, h.1.2⟩, h.2⟩
    · split
      · next hk =>
        subst hk
        split
        · exact cellsOk_lower h.2 (by omega)
        · next hv =>
          simp only [cellsOk, Bool.and_eq_true, decide_eq_true_eq, bne_iff_ne, ne_eq]
          exact ⟨⟨⟨hlow, ha⟩, hv⟩, h.2⟩
      · simp only [cellsOk, Bool.and_eq_true, decide_eq_true_eq, bne_iff_ne, ne_eq]
        exact ⟨h.1, ih h.2 (by omega)⟩

/-- A listed address lies in the bounds, and its cell is not what it would read as unlisted. -/
theorem lookupCell_some {init : Nat → Word} {bound low : Nat} {cells : List (Nat × Word)}
    (h : cellsOk init bound low cells = true) {a : Nat} {w : Word} (hw : lookupCell cells a = some w) :
    low ≤ a ∧ a < bound ∧ w ≠ init a := by
  induction cells generalizing low with
  | nil => cases hw
  | cons c rest ih =>
    obtain ⟨k, x⟩ := c
    simp only [cellsOk, Bool.and_eq_true, decide_eq_true_eq, bne_iff_ne, ne_eq] at h
    simp only [lookupCell] at hw
    split at hw
    · next hk =>
      subst hk
      cases hw
      exact ⟨h.1.1.1, h.1.1.2, h.1.2⟩
    · obtain ⟨h1, h2, h3⟩ := ih h.2 hw
      exact ⟨by omega, h2, h3⟩

/-- Two cell lists in canonical form with the same listing are equal. -/
theorem cells_ext {init : Nat → Word} {bound low : Nat} {xs ys : List (Nat × Word)}
    (hx : cellsOk init bound low xs = true) (hy : cellsOk init bound low ys = true)
    (h : ∀ a, lookupCell xs a = lookupCell ys a) : xs = ys := by
  induction xs generalizing low ys with
  | nil =>
    cases ys with
    | nil => rfl
    | cons c rest =>
      have := h c.1
      simp [lookupCell] at this
  | cons c rest ih =>
    obtain ⟨k, w⟩ := c
    cases ys with
    | nil =>
      have := h k
      simp [lookupCell] at this
    | cons d rest' =>
      obtain ⟨k', w'⟩ := d
      simp only [cellsOk, Bool.and_eq_true, decide_eq_true_eq] at hx hy
      have hk : k = k' := by
        rcases Nat.lt_trichotomy k k' with hlt | heq | hgt
        · have h1 := h k
          have h2 := lookupCell_none_of_low hy.2 (a := k) (by omega)
          simp [lookupCell, h2, Nat.ne_of_lt hlt] at h1
        · exact heq
        · have h1 := h k'
          have h2 := lookupCell_none_of_low hx.2 (a := k') (by omega)
          simp [lookupCell, h2, Nat.ne_of_lt hgt] at h1
      subst hk
      have hw : w = w' := by
        have h1 := h k
        simpa [lookupCell] using h1
      subst hw
      have htail : rest = rest' := by
        refine ih hx.2 hy.2 (fun a => ?_)
        by_cases ha : a = k
        · subst ha
          rw [lookupCell_none_of_low hx.2 (by omega), lookupCell_none_of_low hy.2 (by omega)]
        · have h1 := h a
          simpa [lookupCell, ha] using h1
      rw [htail]

/-! ### Words -/

section
variable (p : Params)

@[simp] theorem memWrite_resets (m : Memory) (a : Nat) (v : Word) :
    (memWrite p m a v).resets = m.resets := rfl

@[simp] theorem unwritten_memWrite (m : Memory) (a : Nat) (v : Word) :
    unwritten p (memWrite p m a v) = unwritten p m := rfl

/-- A write leaves every other word alone (R51). -/
theorem memRead_memWrite_ne (m : Memory) (a : Nat) (v : Word) {b : Nat} (h : b ≠ a) :
    memRead p (memWrite p m a v) b = memRead p m b := by
  simp only [memRead, memWrite, lookupCell_setCell_ne _ _ _ _ h]
  rfl

/-- A read after a write to the same word gives what was written (R51). -/
theorem memRead_memWrite_self {m : Memory} (hm : Memory.wf p m = true) (a : Nat) (v : Word) :
    memRead p (memWrite p m a v) a = v := by
  have h := lookupCell_setCell_self hm a v
  simp only [memRead, memWrite, h]
  split
  · next w hw =>
    split at hw
    · cases hw
    · cases hw; rfl
  · next hw =>
    split at hw
    · next hv => exact hv.symm
    · cases hw

/-- A write to one of the 2^AW words keeps the canonical form. -/
theorem wf_memWrite {m : Memory} (hm : Memory.wf p m = true) {a : Nat} (ha : a < p.bufWords)
    (v : Word) : Memory.wf p (memWrite p m a v) = true :=
  cellsOk_setCell hm (Nat.zero_le a) ha v

/-- Two memories in canonical form, of the same reset, that read the same are equal. -/
theorem memory_ext {m m' : Memory} (hm : Memory.wf p m = true) (hm' : Memory.wf p m' = true)
    (hr : m.resets = m'.resets) (h : ∀ a, memRead p m a = memRead p m' a) : m = m' := by
  have hu : unwritten p m = unwritten p m' := by
    funext a
    simp [unwritten, hr]
  obtain ⟨r, xs⟩ := m
  obtain ⟨r', ys⟩ := m'
  cases hr
  have : xs = ys := by
    refine cells_ext hm hm' (fun a => ?_)
    have ha := h a
    simp only [memRead] at ha
    cases hx : lookupCell xs a with
    | none =>
      cases hy : lookupCell ys a with
      | none => rfl
      | some w =>
        rw [hx, hy] at ha
        exact absurd ha.symm (lookupCell_some hm' hy).2.2
    | some w =>
      cases hy : lookupCell ys a with
      | none =>
        rw [hx, hy] at ha
        exact absurd ha (lookupCell_some hm hx).2.2
      | some w' =>
        rw [hx, hy] at ha
        simpa using ha
  rw [this]

/-! ### Sequences -/

@[simp] theorem readSeq_length (m : Memory) (r : Region) : (readSeq p m r).length = r.len := by
  simp [readSeq]

/-- Element j of a sequence is the word at base + j (R16). -/
theorem readSeq_getD (m : Memory) (r : Region) {j : Nat} (h : j < r.len) (d : Word) :
    (readSeq p m r).getD j d = memRead p m (r.base + j) := by
  simp [readSeq, List.getD, h]

@[simp] theorem storeSeq_resets (m : Memory) (base : Nat) (vs : List Word) :
    (storeSeq p m base vs).resets = m.resets := by
  induction vs generalizing m base with
  | nil => rfl
  | cons v rest ih => simp [storeSeq, ih]

/-- `Store` leaves every word outside its region alone (R56). -/
theorem memRead_storeSeq_outside (m : Memory) (base : Nat) (vs : List Word) {a : Nat}
    (h : a < base ∨ base + vs.length ≤ a) : memRead p (storeSeq p m base vs) a = memRead p m a := by
  induction vs generalizing m base with
  | nil => rfl
  | cons v rest ih =>
    simp only [List.length_cons] at h
    rw [storeSeq, ih _ _ (by omega), memRead_memWrite_ne p m base v (by omega)]

/-- `Store` into the 2^AW words keeps the canonical form. -/
theorem wf_storeSeq {m : Memory} (hm : Memory.wf p m = true) (base : Nat) (vs : List Word)
    (h : base + vs.length ≤ p.bufWords) : Memory.wf p (storeSeq p m base vs) = true := by
  induction vs generalizing m base with
  | nil => exact hm
  | cons v rest ih =>
    simp only [List.length_cons] at h
    exact ih (wf_memWrite p hm (by omega) v) (base + 1) (by omega)

/-- `Store` writes element j at base + j (R16). -/
theorem memRead_storeSeq_inside {m : Memory} (hm : Memory.wf p m = true) (base : Nat)
    (vs : List Word) (h : base + vs.length ≤ p.bufWords) {j : Nat} (hj : j < vs.length) :
    memRead p (storeSeq p m base vs) (base + j) = vs.getD j 0 := by
  induction vs generalizing m base j with
  | nil => simp at hj
  | cons v rest ih =>
    simp only [List.length_cons] at h hj
    have hw := wf_memWrite p hm (a := base) (by omega) v
    cases j with
    | zero =>
      simp only [storeSeq, Nat.add_zero, List.getD_cons_zero]
      rw [memRead_storeSeq_outside p _ _ _ (by omega), memRead_memWrite_self p hm]
    | succ k =>
      have := ih hw (base + 1) (by omega) (j := k) (by omega)
      simp only [storeSeq, List.getD_cons_succ]
      rw [← this]
      congr 1
      omega

@[simp] theorem storeAll_resets (m : Memory) (rs : List Region) (outs : List (List Word)) :
    (storeAll p m rs outs).resets = m.resets := by
  induction rs generalizing m outs with
  | nil => cases outs <;> rfl
  | cons r rest ih =>
    cases outs with
    | nil => rfl
    | cons o more => simp [storeAll, ih]

/-- The commit leaves every word outside the output regions alone, when each output has its region's
length (R56). -/
theorem memRead_storeAll_outside (m : Memory) (rs : List Region) (outs : List (List Word))
    (hl : List.Forall₂ (fun r o => r.len = List.length o) rs outs) {a : Nat}
    (h : ∀ r ∈ rs, a < r.base ∨ r.base + r.len ≤ a) :
    memRead p (storeAll p m rs outs) a = memRead p m a := by
  induction hl generalizing m with
  | nil => rfl
  | cons hlen _ ih =>
    rw [storeAll, ih _ (fun r hr => h r (List.mem_cons_of_mem _ hr)),
      memRead_storeSeq_outside]
    rw [← hlen]
    exact h _ List.mem_cons_self

/-- The commit keeps the canonical form, when each output has its region's length and the regions are
in bounds. -/
theorem wf_storeAll {m : Memory} (hm : Memory.wf p m = true) (rs : List Region)
    (outs : List (List Word)) (hl : List.Forall₂ (fun r o => r.len = List.length o) rs outs)
    (h : ∀ r ∈ rs, r.base + r.len ≤ p.bufWords) : Memory.wf p (storeAll p m rs outs) = true := by
  induction hl generalizing m with
  | nil => exact hm
  | cons hlen _ ih =>
    refine ih (wf_storeSeq p hm _ _ ?_) (fun r hr => h r (List.mem_cons_of_mem _ hr))
    rw [← hlen]
    exact h _ List.mem_cons_self

end

end Sys2Proof.Machine
end

