-- ==== Sys2Proof/Laws/State.lean ====
section
/-! SUPPORT. The fields of a state after each named update: one lemma per field per update, so that no
later proof unfolds a record update. -/

namespace Sys2Proof.Machine

/-! ### Error entry -/

@[simp] theorem reject_status (s : State) (c : Cause) : (reject s c).status = rejectedStatus c := rfl
@[simp] theorem reject_cmd (s : State) (c : Cause) : (reject s c).cmd = s.cmd := rfl
@[simp] theorem reject_len (s : State) (c : Cause) : (reject s c).len = s.len := rfl
@[simp] theorem reject_src0 (s : State) (c : Cause) : (reject s c).src0 = s.src0 := rfl
@[simp] theorem reject_src1 (s : State) (c : Cause) : (reject s c).src1 = s.src1 := rfl
@[simp] theorem reject_dst0 (s : State) (c : Cause) : (reject s c).dst0 = s.dst0 := rfl
@[simp] theorem reject_dst1 (s : State) (c : Cause) : (reject s c).dst1 = s.dst1 := rfl
@[simp] theorem reject_wtab (s : State) (c : Cause) : (reject s c).wtab = s.wtab := rfl
@[simp] theorem reject_fs (s : State) (c : Cause) : (reject s c).fs = s.fs := rfl
@[simp] theorem reject_fc0 (s : State) (c : Cause) : (reject s c).fc0 = s.fc0 := rfl
@[simp] theorem reject_fc1 (s : State) (c : Cause) : (reject s c).fc1 = s.fc1 := rfl
@[simp] theorem reject_mem (s : State) (c : Cause) : (reject s c).mem = s.mem := rfl
@[simp] theorem reject_script (s : State) (c : Cause) : (reject s c).script = s.script := rfl
@[simp] theorem reject_returned (s : State) (c : Cause) : (reject s c).returned = s.returned := rfl

/-! ### The commit of an accepted command -/

section
variable (p : Params) (s : State) (o : Operands) (e : Bool) (outs : List (List Word))

@[simp] theorem commit_status : (commit p s o e outs).status = acceptedStatus e := rfl
@[simp] theorem commit_mem : (commit p s o e outs).mem = storeAll p s.mem o.outs outs := rfl
@[simp] theorem commit_cmd : (commit p s o e outs).cmd = s.cmd := rfl
@[simp] theorem commit_len : (commit p s o e outs).len = s.len := rfl
@[simp] theorem commit_src0 : (commit p s o e outs).src0 = s.src0 := rfl
@[simp] theorem commit_src1 : (commit p s o e outs).src1 = s.src1 := rfl
@[simp] theorem commit_dst0 : (commit p s o e outs).dst0 = s.dst0 := rfl
@[simp] theorem commit_dst1 : (commit p s o e outs).dst1 = s.dst1 := rfl
@[simp] theorem commit_wtab : (commit p s o e outs).wtab = s.wtab := rfl
@[simp] theorem commit_fs : (commit p s o e outs).fs = s.fs := rfl
@[simp] theorem commit_fc0 : (commit p s o e outs).fc0 = s.fc0 := rfl
@[simp] theorem commit_fc1 : (commit p s o e outs).fc1 = s.fc1 := rfl
@[simp] theorem commit_script : (commit p s o e outs).script = s.script := rfl
@[simp] theorem commit_returned : (commit p s o e outs).returned = s.returned := rfl

end

/-! ### A returned word -/

@[simp] theorem returnWord_returned (s : State) (v : Word) :
    (returnWord s v).returned = s.returned ++ [v] := rfl
@[simp] theorem returnWord_mem (s : State) (v : Word) : (returnWord s v).mem = s.mem := rfl
@[simp] theorem returnWord_status (s : State) (v : Word) : (returnWord s v).status = s.status := rfl
@[simp] theorem returnWord_cmd (s : State) (v : Word) : (returnWord s v).cmd = s.cmd := rfl
@[simp] theorem returnWord_script (s : State) (v : Word) : (returnWord s v).script = s.script := rfl

/-! ### Reset -/

@[simp] theorem resetBlock_status (s : State) : (resetBlock s).status = 0 := rfl
@[simp] theorem resetBlock_cmd (s : State) : (resetBlock s).cmd = 0 := rfl
@[simp] theorem resetBlock_cells (s : State) : (resetBlock s).mem.cells = [] := rfl
@[simp] theorem resetBlock_resets (s : State) : (resetBlock s).mem.resets = s.mem.resets + 1 := rfl
@[simp] theorem resetBlock_script (s : State) : (resetBlock s).script = s.script := rfl
@[simp] theorem resetBlock_returned (s : State) : (resetBlock s).returned = s.returned := rfl

/-! ### A host write to an operand register -/

/-- `writeReg` changes operand registers only. -/
theorem writeReg_keeps (s : State) (r : Fin 16) (v : Word) :
    (writeReg s r v).mem = s.mem ∧ (writeReg s r v).status = s.status ∧
    (writeReg s r v).cmd = s.cmd ∧ (writeReg s r v).script = s.script ∧
    (writeReg s r v).returned = s.returned := by
  unfold writeReg
  split <;> exact ⟨rfl, rfl, rfl, rfl, rfl⟩

@[simp] theorem writeReg_mem (s : State) (r : Fin 16) (v : Word) : (writeReg s r v).mem = s.mem :=
  (writeReg_keeps s r v).1
@[simp] theorem writeReg_status (s : State) (r : Fin 16) (v : Word) :
    (writeReg s r v).status = s.status := (writeReg_keeps s r v).2.1
@[simp] theorem writeReg_cmd (s : State) (r : Fin 16) (v : Word) : (writeReg s r v).cmd = s.cmd :=
  (writeReg_keeps s r v).2.2.1
@[simp] theorem writeReg_script (s : State) (r : Fin 16) (v : Word) :
    (writeReg s r v).script = s.script := (writeReg_keeps s r v).2.2.2.1
@[simp] theorem writeReg_returned (s : State) (r : Fin 16) (v : Word) :
    (writeReg s r v).returned = s.returned := (writeReg_keeps s r v).2.2.2.2

end Sys2Proof.Machine
end

