-- ==== Sys2Proof/Laws/Phases.lean ====
section
/-! SUPPORT. The phases of a command: what the checks test, what a run of the phases can do, and the
one shape every command has. -/

namespace Sys2Proof.Machine

/-! ### The checks -/

theorem boundsCheck_none_iff (p : Params) (o : Operands) :
    boundsCheck p o = none ↔ ∀ r ∈ o.ins ++ o.outs, r.base + r.len ≤ p.bufWords := by
  have h : ((o.ins ++ o.outs).all (inBounds p) = true) ↔
      ∀ r ∈ o.ins ++ o.outs, r.base + r.len ≤ p.bufWords := by
    simp only [List.all_eq_true, inBounds, decide_eq_true_eq]
  rw [← h]
  unfold boundsCheck
  split <;> simp [*]

theorem overlapCheck_none_iff (o : Operands) : overlapCheck o = none ↔ outputClash o = false := by
  unfold overlapCheck
  split
  · next h => simp [h]
  · next h => simpa using h

/-- The overlap test on regions of positive length says that neither ends before the other begins
(R54). -/
theorem overlaps_false_iff {a b : Region} (ha : 0 < a.len) (hb : 0 < b.len) :
    overlaps a b = false ↔ a.base + a.len ≤ b.base ∨ b.base + b.len ≤ a.base := by
  simp only [overlaps, Bool.and_eq_false_iff, decide_eq_false_iff_not]
  omega

/-- No failure means that all four checks passed. -/
theorem firstFailure_none_iff (p : Params) (lc pc : Option Cause) (o : Operands) :
    firstFailure p lc pc o = none ↔
      lc = none ∧ pc = none ∧ boundsCheck p o = none ∧ overlapCheck o = none := by
  unfold firstFailure
  cases lc <;> cases pc <;> simp
  cases boundsCheck p o <;> simp

@[simp] theorem firstFailure_length (p : Params) (c : Cause) (pc : Option Cause) (o : Operands) :
    firstFailure p (some c) pc o = some c := rfl

@[simp] theorem firstFailure_param (p : Params) (c : Cause) (o : Operands) :
    firstFailure p none (some c) o = some c := rfl

/-! ### Running the phases -/

theorem runPhases_reject {p : Params} {s : State} {lc pc : Option Cause} {o : Operands} {e : Bool}
    {compute : List (List Word) → List (List Word)} {c : Cause} (h : firstFailure p lc pc o = some c) :
    runPhases p s lc pc o e compute = reject s c := by
  simp [runPhases, h]

theorem runPhases_commit {p : Params} {s : State} {lc pc : Option Cause} {o : Operands} {e : Bool}
    {compute : List (List Word) → List (List Word)} (h : firstFailure p lc pc o = none) :
    runPhases p s lc pc o e compute = commit p s o e (compute (readInputs p s o)) := by
  simp [runPhases, h]

/-- A command either is rejected for its first failure or commits its outputs. -/
theorem runPhases_cases (p : Params) (s : State) (lc pc : Option Cause) (o : Operands) (e : Bool)
    (compute : List (List Word) → List (List Word)) :
    (∃ c, firstFailure p lc pc o = some c ∧ runPhases p s lc pc o e compute = reject s c) ∨
    (firstFailure p lc pc o = none ∧
      runPhases p s lc pc o e compute = commit p s o e (compute (readInputs p s o))) := by
  cases h : firstFailure p lc pc o with
  | some c => exact .inl ⟨c, rfl, runPhases_reject h⟩
  | none => exact .inr ⟨rfl, runPhases_commit h⟩

/-! ### Every command has outputs of its regions' lengths -/

/-- Each output sequence has the length of its region. -/
def LengthsMatch (o : Operands) (outs : List (List Word)) : Prop :=
  List.Forall₂ (fun r out => r.len = List.length out) o.outs outs

@[simp] theorem lowPassKernel_length (p : Params) (c : Word) (m : Nat) (w : WSel) (tab : List Word) :
    (lowPassKernel p c m w tab).length = m := by
  simp [lowPassKernel]

@[simp] theorem spectralInvert_length (p : Params) (h : List Word) (m : Nat) :
    (spectralInvert p h m).length = h.length := by
  simp [spectralInvert]

@[simp] theorem bandPassKernel_length (p : Params) (cl cu : Word) (m : Nat) (w : WSel)
    (tab : List Word) : (bandPassKernel p cl cu m w tab).length = m := by
  simp [bandPassKernel]

@[simp] theorem winTable_length (p : Params) (w : WSel) (m : Nat) : (winTable p w m).length = m := by
  simp [winTable]

theorem dft_lengths (p : Params) (s : State) (x : List Word) :
    LengthsMatch (dftOperands s) (dftOutputs p x s.len.toNat) := by
  simp [LengthsMatch, dftOperands, dftOutputs]

theorem idft_lengths (p : Params) (s : State) (re im : List Word) :
    LengthsMatch (idftOperands s) (idftOutputs p re im s.len.toNat) := by
  simp [LengthsMatch, idftOperands, idftOutputs]

theorem cdft_lengths (p : Params) (s : State) (a b : List Word) :
    LengthsMatch (cdftOperands s) (cdftOutputs p a b s.len.toNat) := by
  simp [LengthsMatch, cdftOperands, cdftOutputs]

theorem r2p_lengths (p : Params) (s : State) (re im : List Word) :
    LengthsMatch (r2pOperands s) (r2pOutputs p re im s.len.toNat) := by
  simp [LengthsMatch, r2pOperands, r2pOutputs]

theorem filter_lengths (w : WSel) (s : State) {k : List Word} (hk : k.length = s.len.toNat) :
    LengthsMatch (filterOperands w s) [k] := by
  simp [LengthsMatch, filterOperands, hk]

theorem win_lengths (p : Params) (w : WSel) (s : State) :
    LengthsMatch (winOperands s) [winTable p w s.len.toNat] := by
  simp [LengthsMatch, winOperands]

/-- Two states with the same operand registers (R28). -/
def SameOperands (s s' : State) : Prop :=
  s'.len = s.len ∧ s'.src0 = s.src0 ∧ s'.src1 = s.src1 ∧ s'.dst0 = s.dst0 ∧ s'.dst1 = s.dst1 ∧
    s'.wtab = s.wtab ∧ s'.fs = s.fs ∧ s'.fc0 = s.fc0 ∧ s'.fc1 = s.fc1

/-- The one shape of a command: its phases.  The checks, the operands, the flag and the function of the
inputs depend on the operand registers alone, and the outputs have their regions' lengths. -/
theorem exec_plan (i : Instr) (s : State) :
    ∃ lc pc o e compute, (∀ s', SameOperands s s' →
      exec i s' = .next (runPhases Config.params s' lc pc o e compute)) ∧
      ∀ ins, LengthsMatch o (compute ins) := by
  have key : ∀ (lc pc : State → Option Cause) (o : State → Operands) (e : State → Bool)
      (f : State → List (List Word) → List (List Word)),
      (∀ s', exec i s' = .next (runPhases Config.params s' (lc s') (pc s') (o s') (e s') (f s'))) →
      (∀ s', SameOperands s s' → lc s' = lc s ∧ pc s' = pc s ∧ o s' = o s ∧ e s' = e s ∧ f s' = f s) →
      (∀ ins, LengthsMatch (o s) (f s ins)) →
      ∃ lc pc o e compute, (∀ s', SameOperands s s' →
        exec i s' = .next (runPhases Config.params s' lc pc o e compute)) ∧
        ∀ ins, LengthsMatch o (compute ins) := by
    intro lc pc o e f h1 h2 h3
    refine ⟨lc s, pc s, o s, e s, f s, fun s' hs => ?_, h3⟩
    obtain ⟨a, b, c, d, g⟩ := h2 s' hs
    rw [h1, a, b, c, d, g]
  cases i
  case dft =>
    refine key _ _ _ _ _ (fun s' => rfl) ?_ (fun ins => dft_lengths _ _ _)
    rintro s' ⟨h1, h2, h3, h4, h5, h6, h7, h8, h9⟩
    simp only [transformLengthCheck, dftOperands, h1, h2, h4, h5, and_self]
  case idft =>
    refine key _ _ _ _ _ (fun s' => rfl) ?_ (fun ins => idft_lengths _ _ _ _)
    rintro s' ⟨h1, h2, h3, h4, h5, h6, h7, h8, h9⟩
    simp only [transformLengthCheck, idftOperands, h1, h2, h3, h4, and_self]
  case cdft =>
    refine key _ _ _ _ _ (fun s' => rfl) ?_ (fun ins => cdft_lengths _ _ _ _)
    rintro s' ⟨h1, h2, h3, h4, h5, h6, h7, h8, h9⟩
    simp only [transformLengthCheck, cdftOperands, h1, h2, h3, h4, h5, and_self]
  case r2p =>
    refine key _ _ _ _ _ (fun s' => rfl) ?_ (fun ins => r2p_lengths _ _ _ _)
    rintro s' ⟨h1, h2, h3, h4, h5, h6, h7, h8, h9⟩
    simp only [positiveLengthCheck, r2pOperands, h1, h2, h3, h4, h5, and_self]
  case winHamming =>
    refine key _ _ _ _ _ (fun s' => rfl) ?_ (fun ins => win_lengths _ _ _)
    rintro s' ⟨h1, h2, h3, h4, h5, h6, h7, h8, h9⟩
    simp only [positiveLengthCheck, winOperands, h1, h4, and_self]
  case winBlackman =>
    refine key _ _ _ _ _ (fun s' => rfl) ?_ (fun ins => win_lengths _ _ _)
    rintro s' ⟨h1, h2, h3, h4, h5, h6, h7, h8, h9⟩
    simp only [positiveLengthCheck, winOperands, h1, h4, and_self]
  all_goals
    refine key _ _ _ _ _ (fun s' => rfl) ?_ (fun ins => filter_lengths _ _ (by simp))
    rintro s' ⟨h1, h2, h3, h4, h5, h6, h7, h8, h9⟩
    simp only [positiveLengthCheck, filterOperands, ratioCheck, bandCheck, h1, h4, h6, h7, h8, h9,
      and_self]

/-- What a command can do: it is rejected for some cause, or it commits outputs of its regions' lengths
to regions that are in bounds. -/
theorem exec_cases (i : Instr) (s : State) :
    (∃ c, exec i s = .next (reject s c)) ∨
    (∃ o e outs, exec i s = .next (commit Config.params s o e outs) ∧ LengthsMatch o outs ∧
      (∀ r ∈ o.ins ++ o.outs, r.base + r.len ≤ Config.params.bufWords) ∧ outputClash o = false) := by
  obtain ⟨lc, pc, o, e, compute, h, hl⟩ := exec_plan i s
  have hs := h s ⟨rfl, rfl, rfl, rfl, rfl, rfl, rfl, rfl, rfl⟩
  rcases runPhases_cases Config.params s lc pc o e compute with ⟨c, _, hr⟩ | ⟨hf, hc⟩
  · exact .inl ⟨c, by rw [hs, hr]⟩
  · obtain ⟨_, _, hb, ho⟩ := (firstFailure_none_iff _ _ _ _).mp hf
    exact .inr ⟨o, e, _, by rw [hs, hc], hl _, (boundsCheck_none_iff _ _).mp hb,
      (overlapCheck_none_iff _).mp ho⟩

/-! ### STATUS words -/

theorem acceptedStatus_legal (e : Bool) : acceptedStatus e ∈ legalStatusWords := by
  cases e <;> decide

theorem rejectedStatus_legal (c : Cause) : rejectedStatus c ∈ legalStatusWords := by
  cases c <;> decide

theorem acceptedStatus_eq (e : Bool) : acceptedStatus e = if e then 0x03 else 0x01 := by
  cases e <;> decide

theorem eclass_accepted (e : Bool) : statusEClass (acceptedStatus e) = 0 := by
  cases e <;> decide

theorem eclass_rejected (c : Cause) : statusEClass (rejectedStatus c) ≠ 0 := by
  cases c <;> decide

theorem isEven_iff (m : Nat) : isEven m = true ↔ m % 2 = 0 := by
  simp only [isEven, beq_iff_eq]
  omega

end Sys2Proof.Machine
end

