-- ==== Sys2Proof/Laws/Accept.lean ====
section
/-! SUPPORT. When a command is accepted: the checks of the model against the tables of the spec as
Safety.lean writes them, and the words an accepted command leaves in its output regions. -/

namespace Sys2Proof.Machine

/-! ### Regions -/

/-- The pairs of a table row as regions. -/
def asRegions (l : List (Nat × Nat)) : List Region := l.map fun r => ⟨r.1, r.2⟩

@[simp] theorem asRegions_nil : asRegions [] = [] := rfl
@[simp] theorem asRegions_cons (r : Nat × Nat) (l : List (Nat × Nat)) :
    asRegions (r :: l) = ⟨r.1, r.2⟩ :: asRegions l := rfl

/-- The operands of a command from the table of R100. -/
def tableOperands (i : Instr) (s : State) : Operands :=
  ⟨asRegions (inputRegions i s), asRegions (outputRegions i s)⟩

theorem mem_asRegions {l : List (Nat × Nat)} {r : Region} :
    r ∈ asRegions l ↔ (r.base, r.len) ∈ l := by
  simp only [asRegions, List.mem_map]
  constructor
  · rintro ⟨q, hq, rfl⟩
    exact hq
  · intro h
    exact ⟨_, h, rfl⟩

theorem bounds_iff (i : Instr) (s : State) :
    boundsCheck Config.params (tableOperands i s) = none ↔ RegionsFit i s := by
  rw [boundsCheck_none_iff]
  unfold RegionsFit Fits tableOperands
  constructor
  · intro h r hr
    refine h ⟨r.1, r.2⟩ ?_
    simpa only [List.mem_append, mem_asRegions] using hr
  · intro h r hr
    refine h (r.base, r.len) ?_
    simpa only [List.mem_append, mem_asRegions] using hr

theorem someOverlap_iff (l : List (Nat × Nat)) (hp : ∀ r ∈ l, 0 < r.2) :
    someOverlap (asRegions l) = false ↔ l.Pairwise Apart := by
  induction l with
  | nil => simp [someOverlap]
  | cons r rest ih =>
    have ih := ih (fun q hq => hp q (by simp [hq]))
    simp only [asRegions_cons, someOverlap, Bool.or_eq_false_iff, List.pairwise_cons, ih]
    apply and_congr_left
    intro _
    simp only [List.any_eq_false, Bool.not_eq_true]
    constructor
    · intro h q hq
      have h1 := h ⟨q.1, q.2⟩ (mem_asRegions.mpr hq)
      rwa [overlaps_false_iff (hp r (by simp)) (hp q (by simp [hq]))] at h1
    · intro h q hq
      have h1 := mem_asRegions.mp hq
      rw [overlaps_false_iff (hp r (by simp)) (hp _ (List.mem_cons_of_mem _ h1))]
      exact h _ h1

/-- With the length check passed, every region of the command has a word. -/
theorem regions_pos {i : Instr} {s : State} (h : LengthOk i s) :
    ∀ r ∈ inputRegions i s ++ outputRegions i s, 0 < r.2 := by
  obtain ⟨h1, h2⟩ := h
  cases i <;> simp [IsTransform, inputRegions, outputRegions] at * <;> omega

theorem overlap_iff {i : Instr} {s : State} (h : LengthOk i s) :
    overlapCheck (tableOperands i s) = none ↔ RegionsApart i s := by
  have hp := regions_pos h
  rw [overlapCheck_none_iff]
  simp only [outputClash, Bool.or_eq_false_iff, RegionsApart, tableOperands]
  rw [someOverlap_iff _ (fun r hr => hp r (by simp [hr]))]
  apply and_congr_left
  intro _
  simp only [List.any_eq_false, Bool.not_eq_true]
  constructor
  · intro hh r hr q hq
    have h1 := hh ⟨r.1, r.2⟩ (mem_asRegions.mpr hr) ⟨q.1, q.2⟩ (mem_asRegions.mpr hq)
    rwa [overlaps_false_iff (hp r (by simp [hr])) (hp q (by simp [hq]))] at h1
  · intro hh r hr q hq
    have hr := mem_asRegions.mp hr
    have hq := mem_asRegions.mp hq
    rw [overlaps_false_iff (hp _ (List.mem_append_right _ hr)) (hp _ (List.mem_append_left _ hq))]
    exact hh _ hr _ hq

/-! ### The checks of a command -/

/-- `LengthCheck` of a command's row (R101). -/
def tableLengthCheck (i : Instr) (s : State) : Option Cause :=
  match i with
  | .dft => transformLengthCheck s
  | .idft => transformLengthCheck s
  | .cdft => transformLengthCheck s
  | .r2p => positiveLengthCheck s
  | .lpf => positiveLengthCheck s
  | .lpfBlackman => positiveLengthCheck s
  | .lpfCustom => positiveLengthCheck s
  | .hpf => positiveLengthCheck s
  | .hpfBlackman => positiveLengthCheck s
  | .hpfCustom => positiveLengthCheck s
  | .bpf => positiveLengthCheck s
  | .bpfBlackman => positiveLengthCheck s
  | .bpfCustom => positiveLengthCheck s
  | .winHamming => positiveLengthCheck s
  | .winBlackman => positiveLengthCheck s

/-- `ParamCheck` of a command's row (R102). -/
def tableParamCheck (i : Instr) (s : State) : Option Cause :=
  match i with
  | .dft => none
  | .idft => none
  | .cdft => none
  | .r2p => none
  | .lpf => ratioCheck Config.params s
  | .lpfBlackman => ratioCheck Config.params s
  | .lpfCustom => ratioCheck Config.params s
  | .hpf => ratioCheck Config.params s
  | .hpfBlackman => ratioCheck Config.params s
  | .hpfCustom => ratioCheck Config.params s
  | .bpf => bandCheck Config.params s
  | .bpfBlackman => bandCheck Config.params s
  | .bpfCustom => bandCheck Config.params s
  | .winHamming => none
  | .winBlackman => none

theorem lengthOk_iff (i : Instr) (s : State) : tableLengthCheck i s = none ↔ LengthOk i s := by
  cases i <;>
    simp [LengthOk, IsTransform, tableLengthCheck, transformLengthCheck, positiveLengthCheck] <;> omega

/-- A command that fails the length check fails it for its own cause (R101). -/
theorem lengthCheck_of_not {i : Instr} {s : State} (h : ¬ LengthOk i s) :
    tableLengthCheck i s =
      some (if s.len.toNat < 2 ∧ (i = .dft ∨ i = .idft ∨ i = .cdft) then .lenLt2 else .lenZero) := by
  cases i <;>
    simp [LengthOk, IsTransform, tableLengthCheck, transformLengthCheck, positiveLengthCheck] at h ⊢ <;>
    simp [h]

theorem cutoffOk_iff (cutoff fs : Word) :
    cutoffOk (cutoffRatio Config.params cutoff fs) = true ↔ RatioOk cutoff fs := by
  simp [cutoffOk, cutoffRatio, RatioOk]

theorem ratioCheck_cases (s : State) :
    (RatioOk s.fc0 s.fs ∧ ratioCheck Config.params s = none) ∨
    (¬ RatioOk s.fc0 s.fs ∧ ratioCheck Config.params s = some .ratioRange) := by
  rw [← cutoffOk_iff]
  unfold ratioCheck
  split <;> simp [*]

theorem bandCheck_cases (s : State) :
    (RatioOk s.fc0 s.fs ∧ RatioOk s.fc1 s.fs ∧ flt s.fc0 s.fc1 = true ∧
      bandCheck Config.params s = none) ∨
    (RatioOk s.fc0 s.fs ∧ RatioOk s.fc1 s.fs ∧ flt s.fc0 s.fc1 = false ∧
      bandCheck Config.params s = some .cutoffOrder) ∨
    (¬ (RatioOk s.fc0 s.fs ∧ RatioOk s.fc1 s.fs) ∧
      bandCheck Config.params s = some .ratioRange) := by
  rw [← cutoffOk_iff, ← cutoffOk_iff]
  unfold bandCheck
  cases cutoffOk (cutoffRatio Config.params s.fc0 s.fs) <;>
    cases cutoffOk (cutoffRatio Config.params s.fc1 s.fs) <;> cases flt s.fc0 s.fc1 <;> simp

/-- The parameter check passes, or it tells the first failing test (R102, R191). -/
theorem paramCheck_cases (i : Instr) (s : State) :
    (RatiosOk i s ∧ OrderOk i s ∧ tableParamCheck i s = none) ∨
    (RatiosOk i s ∧ ¬ OrderOk i s ∧ tableParamCheck i s = some .cutoffOrder) ∨
    (¬ RatiosOk i s ∧ tableParamCheck i s = some .ratioRange) := by
  have hr := ratioCheck_cases s
  have hb := bandCheck_cases s
  cases i <;> simp [RatiosOk, OrderOk, IsBandPass, IsSingleCutoff, tableParamCheck] <;> tauto

/-- A command's EVENM: evenness of the length for a filter or WIN command, clear for the others
(R22). -/
def tableEvenM (i : Instr) (s : State) : Bool :=
  match i with
  | .dft => false
  | .idft => false
  | .cdft => false
  | .r2p => false
  | .lpf => isEven s.len.toNat
  | .lpfBlackman => isEven s.len.toNat
  | .lpfCustom => isEven s.len.toNat
  | .hpf => isEven s.len.toNat
  | .hpfBlackman => isEven s.len.toNat
  | .hpfCustom => isEven s.len.toNat
  | .bpf => isEven s.len.toNat
  | .bpfBlackman => isEven s.len.toNat
  | .bpfCustom => isEven s.len.toNat
  | .winHamming => isEven s.len.toNat
  | .winBlackman => isEven s.len.toNat

/-- A command's outputs, from the sequences of its input regions (R151, R155, R171, R180, R193 to
R195, R144). -/
def tableOutputs (i : Instr) (s : State) (ins : List (List Word)) : List (List Word) :=
  let p := Config.params
  let m := s.len.toNat
  let x := ins.getD 0 []
  let y := ins.getD 1 []
  let c := cutoffRatio p s.fc0 s.fs
  let c1 := cutoffRatio p s.fc1 s.fs
  match i with
  | .dft => dftOutputs p x m
  | .idft => idftOutputs p x y m
  | .cdft => cdftOutputs p x y m
  | .r2p => r2pOutputs p x y m
  | .lpf => [lowPassKernel p c m .hamming x]
  | .lpfBlackman => [lowPassKernel p c m .blackman x]
  | .lpfCustom => [lowPassKernel p c m .custom x]
  | .hpf => [spectralInvert p (lowPassKernel p c m .hamming x) m]
  | .hpfBlackman => [spectralInvert p (lowPassKernel p c m .blackman x) m]
  | .hpfCustom => [spectralInvert p (lowPassKernel p c m .custom x) m]
  | .bpf => [bandPassKernel p c c1 m .hamming x]
  | .bpfBlackman => [bandPassKernel p c c1 m .blackman x]
  | .bpfCustom => [bandPassKernel p c c1 m .custom x]
  | .winHamming => [winTable p .hamming m]
  | .winBlackman => [winTable p .blackman m]

/-- Every command is its phases over its row of the tables. -/
theorem exec_eq (i : Instr) (s : State) :
    exec i s = .next (runPhases Config.params s (tableLengthCheck i s) (tableParamCheck i s)
      (tableOperands i s) (tableEvenM i s) (tableOutputs i s)) := by
  cases i <;> rfl

theorem tableOutputs_lengths (i : Instr) (s : State) (ins : List (List Word)) :
    LengthsMatch (tableOperands i s) (tableOutputs i s ins) := by
  cases i
  case dft => exact dft_lengths _ s _
  case idft => exact idft_lengths _ s _ _
  case cdft => exact cdft_lengths _ s _ _
  case r2p => exact r2p_lengths _ s _ _
  case winHamming => exact win_lengths _ _ s
  case winBlackman => exact win_lengths _ _ s
  all_goals simp [LengthsMatch, tableOperands, tableOutputs, outputRegions]

/-- The checks of a command all pass exactly when it is accepted. -/
theorem firstFailure_none_iff_accepted (i : Instr) (s : State) :
    firstFailure Config.params (tableLengthCheck i s) (tableParamCheck i s) (tableOperands i s) = none ↔
      Accepted i s := by
  rw [firstFailure_none_iff, lengthOk_iff, bounds_iff]
  unfold Accepted
  rcases paramCheck_cases i s with ⟨hr, ho, hp⟩ | ⟨hr, ho, hp⟩ | ⟨hr, hp⟩
  · constructor
    · rintro ⟨h1, _, h2, h3⟩
      exact ⟨h1, hr, ho, h2, (overlap_iff h1).mp h3⟩
    · rintro ⟨h1, _, _, h2, h3⟩
      exact ⟨h1, hp, h2, (overlap_iff h1).mpr h3⟩
  · simp [hp, ho]
  · simp [hp, hr]

/-- What an accepted command does: the commit of its outputs. -/
theorem exec_accepted {i : Instr} {s : State} (h : Accepted i s) :
    exec i s = .next (commit Config.params s (tableOperands i s) (tableEvenM i s)
      (tableOutputs i s (readInputs Config.params s (tableOperands i s)))) := by
  rw [exec_eq, runPhases_commit ((firstFailure_none_iff_accepted i s).mpr h)]

/-- What a command that is not accepted does: STATUS tells the first failure. -/
theorem exec_rejected {i : Instr} {s : State} (h : ¬ Accepted i s) :
    ∃ c, exec i s = .next (reject s c) ∧
      firstFailure Config.params (tableLengthCheck i s) (tableParamCheck i s) (tableOperands i s) =
        some c := by
  cases hf : firstFailure Config.params (tableLengthCheck i s) (tableParamCheck i s)
      (tableOperands i s) with
  | none => exact absurd ((firstFailure_none_iff_accepted i s).mp hf) h
  | some c => exact ⟨c, by rw [exec_eq, runPhases_reject hf], rfl⟩

/-! ### Words after a commit -/

section
variable (p : Params)

/-- A sequence read after a commit to regions apart from it is the sequence read before (R54, R56). -/
theorem readSeq_storeAll_apart (m : Memory) (rs : List Region) (outs : List (List Word))
    (hl : List.Forall₂ (fun r o => r.len = List.length o) rs outs) {q : Region}
    (h : ∀ r ∈ rs, r.base + r.len ≤ q.base ∨ q.base + q.len ≤ r.base) :
    readSeq p (storeAll p m rs outs) q = readSeq p m q := by
  unfold readSeq
  apply List.map_congr_left
  intro j hj
  rw [List.mem_range] at hj
  refine memRead_storeAll_outside p m rs outs hl (fun r hr => ?_)
  have := h r hr
  omega

/-- The word at place j of the first output region after a commit of one output. -/
theorem memRead_storeAll_one {m : Memory} (hm : Memory.wf p m = true) (r : Region) (o : List Word)
    (hl : r.len = o.length) (hb : r.base + r.len ≤ p.bufWords) {j : Nat} (hj : j < r.len) :
    memRead p (storeAll p m [r] [o]) (r.base + j) = o.getD j 0 := by
  exact memRead_storeSeq_inside p hm _ _ (hl ▸ hb) (hl ▸ hj)

/-- The words at place j of the two output regions after a commit of two outputs. -/
theorem memRead_storeAll_two {m : Memory} (hm : Memory.wf p m = true) (r q : Region)
    (o u : List Word) (hr : r.len = o.length) (hq : q.len = u.length)
    (hrb : r.base + r.len ≤ p.bufWords) (hqb : q.base + q.len ≤ p.bufWords)
    (hd : r.base + r.len ≤ q.base ∨ q.base + q.len ≤ r.base) :
    (∀ j, j < r.len → memRead p (storeAll p m [r, q] [o, u]) (r.base + j) = o.getD j 0) ∧
    (∀ j, j < q.len → memRead p (storeAll p m [r, q] [o, u]) (q.base + j) = u.getD j 0) := by
  have hw := wf_storeSeq p hm r.base o (hr ▸ hrb)
  constructor
  · intro j hj
    simp only [storeAll]
    rw [memRead_storeSeq_outside p _ _ _ (by omega),
      memRead_storeSeq_inside p hm _ _ (hr ▸ hrb) (hr ▸ hj)]
  · intro j hj
    exact memRead_storeSeq_inside p hw _ _ (hq ▸ hqb) (hq ▸ hj)

/-- A commit of the same outputs twice leaves what one leaves. -/
theorem storeAll_twice {m : Memory} (hm : Memory.wf p m = true) (rs : List Region)
    (outs : List (List Word)) (hl : List.Forall₂ (fun r o => r.len = List.length o) rs outs)
    (hb : ∀ r ∈ rs, r.base + r.len ≤ p.bufWords) :
    storeAll p (storeAll p m rs outs) rs outs = storeAll p m rs outs := by
  have hw := wf_storeAll p hm rs outs hl hb
  have hw2 := wf_storeAll p hw rs outs hl hb
  refine memory_ext p hw2 hw (by simp) (fun a => ?_)
  -- the word at an address inside an output region does not depend on the memory stored into
  have key : ∀ (m m' : Memory), Memory.wf p m = true → Memory.wf p m' = true →
      (memRead p m a = memRead p m' a ∨ ∃ r ∈ rs, r.base ≤ a ∧ a < r.base + r.len) →
      memRead p (storeAll p m rs outs) a = memRead p (storeAll p m' rs outs) a := by
    clear hw hw2 hm
    induction hl with
    | nil =>
      rintro m m' _ _ (h | ⟨r, hr, _⟩)
      · exact h
      · cases hr
    | @cons r o rest more hlen _ ih =>
      intro m m' hm hm' h
      have hrb := hb r List.mem_cons_self
      refine ih (fun q hq => hb q (List.mem_cons_of_mem _ hq)) _ _
        (wf_storeSeq p hm _ _ (hlen ▸ hrb)) (wf_storeSeq p hm' _ _ (hlen ▸ hrb)) ?_
      by_cases hin : r.base ≤ a ∧ a < r.base + r.len
      · left
        obtain ⟨j, rfl⟩ := Nat.exists_eq_add_of_le hin.1
        rw [memRead_storeSeq_inside p hm _ _ (hlen ▸ hrb) (by omega),
          memRead_storeSeq_inside p hm' _ _ (hlen ▸ hrb) (by omega)]
      · rcases h with h | ⟨q, hq, hqa⟩
        · left
          rw [memRead_storeSeq_outside p _ _ _ (by omega), memRead_storeSeq_outside p _ _ _ (by omega), h]
        · right
          rcases List.mem_cons.mp hq with rfl | hq
          · exact absurd hqa hin
          · exact ⟨q, hq, hqa⟩
  by_cases hin : ∃ r ∈ rs, r.base ≤ a ∧ a < r.base + r.len
  · exact key _ _ hw hm (.inr hin)
  · refine key _ _ hw hm (.inl ?_)
    refine memRead_storeAll_outside p m rs outs hl (fun r hr => ?_)
    by_contra hc
    exact hin ⟨r, hr, by omega⟩

end

end Sys2Proof.Machine
end

