-- ==== Sys2Proof/Laws/Float.lean ====
section
/-! SUPPORT. The arithmetic: the fields of a packed word, negation, the three kinds of word, and
rounding (bounded, exact on representable values, and indifferent to the form of the quotient). -/

namespace Sys2Proof.Machine

/-! ### Fields -/

theorem expOf_lt (a : Word) : expOf a < 2 ^ 11 := (a.extractLsb' 52 11).isLt
theorem fracOf_lt (a : Word) : fracOf a < 2 ^ 52 := (a.extractLsb' 0 52).isLt

theorem expOf_eq (a : Word) : expOf a = a.toNat / 2 ^ 52 % 2 ^ 11 := by
  simp [expOf, BitVec.extractLsb'_toNat, Nat.shiftRight_eq_div_pow]

theorem fracOf_eq (a : Word) : fracOf a = a.toNat % 2 ^ 52 := by
  simp [fracOf, BitVec.extractLsb'_toNat]

theorem signOf_eq (a : Word) : signOf a = decide (2 ^ 63 ≤ a.toNat) := by
  have h := BitVec.msb_eq_decide a
  rw [← h, signOf, BitVec.msb_eq_getLsbD_last]

theorem pack_toNat (s : Bool) {n : Nat} (h : n < 2 ^ 63) :
    (pack s n).toNat = (if s then 2 ^ 63 else 0) + n := by
  simp only [pack, BitVec.toNat_ofNat]
  apply Nat.mod_eq_of_lt
  split <;> omega

@[simp] theorem signOf_pack (s : Bool) {n : Nat} (h : n < 2 ^ 63) : signOf (pack s n) = s := by
  rw [signOf_eq, pack_toNat s h]
  cases s
  · simp only [Bool.false_eq_true, if_false, Nat.zero_add, decide_eq_false_iff_not]
    omega
  · simp

theorem expOf_pack (s : Bool) {n : Nat} (h : n < 2 ^ 63) : expOf (pack s n) = n / 2 ^ 52 := by
  rw [expOf_eq, pack_toNat s h]
  cases s <;> simp <;> omega

theorem fracOf_pack (s : Bool) {n : Nat} (h : n < 2 ^ 63) : fracOf (pack s n) = n % 2 ^ 52 := by
  rw [fracOf_eq, pack_toNat s h]
  cases s <;> simp
  omega

/-- The low 63 bits of a word. -/
theorem lowBits_lt (a : Word) : expOf a * 2 ^ 52 + fracOf a < 2 ^ 63 := by
  have h1 := expOf_lt a
  have h2 := fracOf_lt a
  omega

/-- A word is its sign and its low 63 bits. -/
theorem pack_fields (a : Word) : pack (signOf a) (expOf a * 2 ^ 52 + fracOf a) = a := by
  apply BitVec.eq_of_toNat_eq
  rw [pack_toNat _ (lowBits_lt a), signOf_eq, expOf_eq, fracOf_eq]
  have h := a.isLt
  by_cases hs : 2 ^ 63 ≤ a.toNat <;> simp only [hs, decide_true, decide_false, if_true,
    Bool.false_eq_true, if_false] <;> omega

/-- Two words with the same sign and the same fields are equal. -/
theorem word_ext {a b : Word} (hs : signOf a = signOf b) (he : expOf a = expOf b)
    (hf : fracOf a = fracOf b) : a = b := by
  rw [← pack_fields a, ← pack_fields b, hs, he, hf]

/-! ### The three kinds of word -/

theorem isNaN_iff (a : Word) : isNaN a = true ↔ expOf a = 2047 ∧ fracOf a ≠ 0 := by
  simp [isNaN]

theorem isInf_iff (a : Word) : isInf a = true ↔ expOf a = 2047 ∧ fracOf a = 0 := by
  simp [isInf]

theorem isFinite_iff (a : Word) : isFinite a = true ↔ expOf a < 2047 := by
  have := expOf_lt a
  simp only [isFinite, bne_iff_ne, ne_eq]
  omega

theorem isZero_iff (a : Word) : isZero a = true ↔ expOf a = 0 ∧ fracOf a = 0 := by
  simp [isZero]

/-- Every word is a NaN, an infinity or finite. -/
theorem kind_cases (a : Word) : isNaN a = true ∨ isInf a = true ∨ isFinite a = true := by
  rw [isNaN_iff, isInf_iff, isFinite_iff]
  have := expOf_lt a
  omega

theorem not_nan_of_finite {a : Word} (h : isFinite a = true) : isNaN a = false := by
  rw [isFinite_iff] at h
  rw [← Bool.not_eq_true, isNaN_iff]
  omega

theorem not_inf_of_finite {a : Word} (h : isFinite a = true) : isInf a = false := by
  rw [isFinite_iff] at h
  rw [← Bool.not_eq_true, isInf_iff]
  omega

theorem not_nan_of_inf {a : Word} (h : isInf a = true) : isNaN a = false := by
  rw [isInf_iff] at h
  rw [← Bool.not_eq_true, isNaN_iff]
  omega

theorem finite_of_zero {a : Word} (h : isZero a = true) : isFinite a = true := by
  rw [isZero_iff] at h
  rw [isFinite_iff]
  omega

/-- The infinity of a sign. -/
theorem pack_inf {a : Word} (h : isInf a = true) : pack (signOf a) infBits = a := by
  rw [isInf_iff] at h
  have := pack_fields a
  rwa [h.1, h.2] at this

/-- The zero of a sign. -/
theorem pack_zero {a : Word} (h : isZero a = true) : pack (signOf a) 0 = a := by
  rw [isZero_iff] at h
  have := pack_fields a
  rwa [h.1, h.2] at this

theorem magnitude_eq_zero {a : Word} : magnitude a = 0 ↔ isZero a = true := by
  rw [isZero_iff]
  unfold magnitude
  split
  · next h => simp [h]
  · next h =>
    have : 0 < (2 ^ 52 + fracOf a) * 2 ^ (expOf a - 1) := Nat.mul_pos (by omega) (Nat.two_pow_pos _)
    omega

@[simp] theorem isNaN_nanResult (p : Params) (op : FOp) (a b : Word) :
    isNaN (nanResult p op a b) = true := by
  unfold nanResult
  split
  · assumption
  · decide

/-! ### NaN arguments -/

theorem fadd_nan (p : Params) {a b : Word} (h : isNaN a = true ∨ isNaN b = true) :
    isNaN (fadd p a b) = true := by
  have : (isNaN a || isNaN b) = true := by simpa using h
  simp [fadd, this]

theorem fmul_nan (p : Params) {a b : Word} (h : isNaN a = true ∨ isNaN b = true) :
    isNaN (fmul p a b) = true := by
  have : (isNaN a || isNaN b) = true := by simpa using h
  simp [fmul, this]

theorem fdiv_nan (p : Params) {a b : Word} (h : isNaN a = true ∨ isNaN b = true) :
    isNaN (fdiv p a b) = true := by
  have : (isNaN a || isNaN b) = true := by simpa using h
  simp [fdiv, this]

/-! ### Negation -/

@[simp] theorem signOf_fneg (a : Word) : signOf (fneg a) = !signOf a := by
  simp [signOf, fneg]

@[simp] theorem expOf_fneg (a : Word) : expOf (fneg a) = expOf a := by
  simp [expOf, fneg, BitVec.extractLsb'_xor]

@[simp] theorem fracOf_fneg (a : Word) : fracOf (fneg a) = fracOf a := by
  simp [fracOf, fneg, BitVec.extractLsb'_xor]

@[simp] theorem fneg_fneg (a : Word) : fneg (fneg a) = a :=
  word_ext (by simp) (by simp) (by simp)

@[simp] theorem isNaN_fneg (a : Word) : isNaN (fneg a) = isNaN a := by simp [isNaN]
@[simp] theorem isInf_fneg (a : Word) : isInf (fneg a) = isInf a := by simp [isInf]
@[simp] theorem isFinite_fneg (a : Word) : isFinite (fneg a) = isFinite a := by simp [isFinite]
@[simp] theorem isZero_fneg (a : Word) : isZero (fneg a) = isZero a := by simp [isZero]
@[simp] theorem magnitude_fneg (a : Word) : magnitude (fneg a) = magnitude a := by simp [magnitude]

@[simp] theorem scaled_fneg (a : Word) : scaled (fneg a) = -scaled a := by
  simp only [scaled, signOf_fneg, magnitude_fneg]
  cases signOf a <;> simp

/-- Negating a packed word flips its sign. -/
theorem fneg_pack (s : Bool) {n : Nat} (h : n < 2 ^ 63) : fneg (pack s n) = pack (!s) n := by
  apply word_ext
  · rw [signOf_fneg, signOf_pack _ h, signOf_pack _ h]
  · rw [expOf_fneg, expOf_pack _ h, expOf_pack _ h]
  · rw [fracOf_fneg, fracOf_pack _ h, fracOf_pack _ h]

/-! ### Values -/

theorem scaled_natAbs (a : Word) : (scaled a).natAbs = magnitude a := by
  unfold scaled
  split <;> simp

/-- A value is 0 exactly for the two zeros. -/
theorem scaled_eq_zero {a : Word} : scaled a = 0 ↔ isZero a = true := by
  rw [← magnitude_eq_zero, ← scaled_natAbs, Int.natAbs_eq_zero]

/-- The sign of a value that is not zero. -/
theorem scaled_neg_iff {a : Word} (h : isZero a = false) : scaled a < 0 ↔ signOf a = true := by
  have hm : magnitude a ≠ 0 := by
    intro h0
    rw [magnitude_eq_zero] at h0
    simp [h0] at h
  unfold scaled
  cases signOf a
  · simp
  · simp only [if_true, iff_true]
    omega

/-- The magnitude of a finite word lies below 2^2098 units, the value of an infinity. -/
theorem magnitude_lt_of_finite {a : Word} (h : isFinite a = true) : magnitude a < 2 ^ 2098 := by
  rw [isFinite_iff] at h
  have hf := fracOf_lt a
  unfold magnitude
  split
  · calc fracOf a < 2 ^ 52 := hf
      _ < 2 ^ 2098 := Nat.pow_lt_pow_right (by decide) (by decide)
  · calc (2 ^ 52 + fracOf a) * 2 ^ (expOf a - 1)
        < 2 ^ 53 * 2 ^ (expOf a - 1) :=
          Nat.mul_lt_mul_of_pos_right (by omega) (Nat.two_pow_pos _)
      _ = 2 ^ (53 + (expOf a - 1)) := (Nat.pow_add ..).symm
      _ ≤ 2 ^ 2098 := Nat.pow_le_pow_right (by decide) (by omega)

/-- The magnitude of an infinity is above that of every finite word (log 20). -/
theorem magnitude_inf {a : Word} (h : isInf a = true) : magnitude a = 2 ^ 2098 := by
  rw [isInf_iff] at h
  unfold magnitude
  rw [h.1, h.2]
  decide +kernel

/-! ### Rounding -/

theorem roundBits_le (n d : Nat) : roundBits n d ≤ infBits := Nat.min_le_right _ _

theorem infBits_lt : infBits < 2 ^ 63 := by decide

theorem roundBits_lt (n d : Nat) : roundBits n d < 2 ^ 63 :=
  Nat.lt_of_le_of_lt (roundBits_le n d) infBits_lt

@[simp] theorem roundBits_zero (d : Nat) : roundBits 0 d = 0 := by
  simp [roundBits, roundHalfEven, lastPlace]

/-- A packed rounding is never a NaN. -/
theorem isNaN_pack_of_le (s : Bool) {n : Nat} (h : n ≤ infBits) : isNaN (pack s n) = false := by
  have hn : n < 2 ^ 63 := Nat.lt_of_le_of_lt h infBits_lt
  rw [← Bool.not_eq_true, isNaN_iff, expOf_pack s hn, fracOf_pack s hn]
  unfold infBits at h
  omega

theorem isNaN_pack_round (s : Bool) (n d : Nat) : isNaN (pack s (roundBits n d)) = false :=
  isNaN_pack_of_le s (roundBits_le n d)

/-- An exact quotient is rounded to itself. -/
theorem roundHalfEven_exact (q : Nat) {d : Nat} (hd : 0 < d) : roundHalfEven (q * d) d = q := by
  simp only [roundHalfEven, Nat.mul_mod_left, Nat.mul_zero, Nat.mul_div_cancel _ hd]
  split
  · next h => omega
  · rfl

/-- Rounding a quotient does not depend on its form. -/
theorem roundHalfEven_scale (n d : Nat) {c : Nat} (hc : 0 < c) :
    roundHalfEven (n * c) (d * c) = roundHalfEven n d := by
  have h1 : n * c / (d * c) = n / d := Nat.mul_div_mul_right n d hc
  have h2 : n * c % (d * c) = (n % d) * c := Nat.mul_mod_mul_right c n d
  simp only [roundHalfEven, h1, h2]
  have h3 : d * c < 2 * (n % d * c) ↔ d < 2 * (n % d) := by
    rw [← Nat.mul_assoc]
    exact Nat.mul_lt_mul_right hc
  have h4 : 2 * (n % d * c) = d * c ↔ 2 * (n % d) = d := by
    rw [← Nat.mul_assoc]
    exact Nat.mul_left_inj (Nat.pos_iff_ne_zero.mp hc)
  simp only [h3, h4]

/-- Rounding a quotient does not depend on its form. -/
theorem roundBits_scale (n d : Nat) {c : Nat} (hc : 0 < c) :
    roundBits (n * c) (d * c) = roundBits n d := by
  simp only [roundBits, Nat.mul_div_mul_right n d hc, Nat.mul_right_comm d c,
    roundHalfEven_scale _ _ hc]

/-- The last place of a finite word's magnitude is its exponent field, less one above the subnormal
numbers. -/
theorem lastPlace_magnitude (a : Word) : lastPlace (magnitude a) = expOf a - 1 := by
  have hf := fracOf_lt a
  unfold lastPlace magnitude
  split
  · next h =>
    have : (fracOf a).log2 ≤ 52 := by
      by_cases h0 : fracOf a = 0
      · simp [h0]
      · have := (Nat.log2_lt h0).mpr hf
        omega
    omega
  · next h =>
    have h0 : (2 ^ 52 + fracOf a) * 2 ^ (expOf a - 1) ≠ 0 :=
      Nat.ne_of_gt (Nat.mul_pos (by omega) (Nat.two_pow_pos _))
    have h1 : ((2 ^ 52 + fracOf a) * 2 ^ (expOf a - 1)).log2 < 53 + (expOf a - 1) := by
      rw [Nat.log2_lt h0, Nat.pow_add]
      exact Nat.mul_lt_mul_of_pos_right (by omega) (Nat.two_pow_pos _)
    have h2 : 52 + (expOf a - 1) ≤ ((2 ^ 52 + fracOf a) * 2 ^ (expOf a - 1)).log2 := by
      rw [Nat.le_log2 h0, Nat.pow_add]
      exact Nat.mul_le_mul_right _ (by omega)
    omega

/-- A representable magnitude rounds to its own bits. -/
theorem roundBits_magnitude {a : Word} (h : isFinite a = true) :
    roundBits (magnitude a) 1 = expOf a * 2 ^ 52 + fracOf a := by
  rw [isFinite_iff] at h
  have hf := fracOf_lt a
  have hround : lastPlace (magnitude a) * 2 ^ 52 +
      roundHalfEven (magnitude a) (1 * 2 ^ lastPlace (magnitude a)) =
      expOf a * 2 ^ 52 + fracOf a := by
    rw [lastPlace_magnitude, Nat.one_mul]
    by_cases he : expOf a = 0
    · have : magnitude a = fracOf a * 2 ^ (expOf a - 1) := by simp [magnitude, he]
      rw [this, roundHalfEven_exact _ (Nat.two_pow_pos _)]
      omega
    · have : magnitude a = (2 ^ 52 + fracOf a) * 2 ^ (expOf a - 1) := by simp [magnitude, he]
      rw [this, roundHalfEven_exact _ (Nat.two_pow_pos _)]
      omega
  simp only [roundBits, Nat.div_one, hround]
  unfold infBits
  omega

/-- A finite word is the rounding of its own value. -/
theorem pack_round_self {a : Word} (h : isFinite a = true) :
    pack (signOf a) (roundBits (magnitude a) 1) = a := by
  rw [roundBits_magnitude h, pack_fields]

/-! ### What rounding and the root do -/

/-- Rounding a quotient goes to an integer at most half a unit away, an even one when two are equally
near (R111). -/
theorem roundHalfEven_spec (n : Nat) {d : Nat} (hd : 0 < d) :
    2 * n ≤ (2 * roundHalfEven n d + 1) * d ∧ 2 * (roundHalfEven n d * d) ≤ 2 * n + d ∧
    (2 * n = (2 * roundHalfEven n d + 1) * d ∨ 2 * (roundHalfEven n d * d) = 2 * n + d →
      roundHalfEven n d % 2 = 0) := by
  have hdiv : n / d * d + n % d = n := by
    rw [Nat.mul_comm]
    exact Nat.div_add_mod n d
  have hlt := Nat.mod_lt n hd
  unfold roundHalfEven
  generalize n / d = q at *
  generalize n % d = r at *
  have h1 : (2 * (q + 1) + 1) * d = 2 * (q * d) + 3 * d := by ring
  have h2 : (2 * q + 1) * d = 2 * (q * d) + d := by ring
  have h3 : (q + 1) * d = q * d + d := by ring
  split
  · next h =>
    rw [h1, h3]
    refine ⟨by omega, by omega, ?_⟩
    intro ht
    omega
  · next h =>
    rw [h2]
    refine ⟨by omega, by omega, ?_⟩
    intro ht
    omega

/-- The bit by bit root: with `q` the upper bits of the root and `k` bits to go, the result is the
integer square root (R114). -/
theorem isqrtFrom_spec (y k q : Nat) (h1 : q * q ≤ y) (h2 : y < (q + 2 ^ k) * (q + 2 ^ k)) :
    isqrtFrom y k q * isqrtFrom y k q ≤ y ∧
    y < (isqrtFrom y k q + 1) * (isqrtFrom y k q + 1) := by
  induction k generalizing q with
  | zero => simpa [isqrtFrom] using ⟨h1, h2⟩
  | succ k ih =>
    simp only [isqrtFrom]
    split
    · next h =>
      refine ih _ h ?_
      have : q + 2 ^ k + 2 ^ k = q + 2 ^ (k + 1) := by ring
      rwa [this]
    · next h => exact ih _ h1 (by omega)

/-! ### The operations on finite words -/

/-- The sum of two finite words that is not zero is the rounding of the exact sum (R111). -/
theorem fadd_finite (p : Params) {a b : Word} (ha : isFinite a = true) (hb : isFinite b = true)
    (h : scaled a + scaled b ≠ 0) :
    fadd p a b = pack (decide (scaled a + scaled b < 0)) (roundBits (scaled a + scaled b).natAbs 1) := by
  simp [fadd, not_nan_of_finite ha, not_nan_of_finite hb, not_inf_of_finite ha, not_inf_of_finite hb, h]

/-- The sum of two finite words that is zero is -0 for two negative zeros and +0 otherwise (R112). -/
theorem fadd_finite_zero (p : Params) {a b : Word} (ha : isFinite a = true) (hb : isFinite b = true)
    (h : scaled a + scaled b = 0) : fadd p a b = pack (signOf a && signOf b) 0 := by
  simp [fadd, not_nan_of_finite ha, not_nan_of_finite hb, not_inf_of_finite ha, not_inf_of_finite hb, h]

/-- The product of two finite words is the rounding of the exact product (R111). -/
theorem fmul_finite (p : Params) {a b : Word} (ha : isFinite a = true) (hb : isFinite b = true) :
    fmul p a b = pack (signOf a != signOf b) (roundBits (magnitude a * magnitude b) (2 ^ 1074)) := by
  unfold fmul
  simp only [not_nan_of_finite ha, not_nan_of_finite hb, not_inf_of_finite ha, not_inf_of_finite hb,
    Bool.or_self, Bool.false_and, Bool.and_false, Bool.false_eq_true, if_false]

/-- The quotient of two finite words, the divisor not zero, is the rounding of the exact quotient
(R111). -/
theorem fdiv_finite (p : Params) {a b : Word} (ha : isFinite a = true) (hb : isFinite b = true)
    (h : isZero b = false) :
    fdiv p a b =
      pack (signOf a != signOf b) (roundBits (magnitude a * 2 ^ 1074) (magnitude b)) := by
  unfold fdiv
  simp only [not_nan_of_finite ha, not_nan_of_finite hb, not_inf_of_finite ha, not_inf_of_finite hb,
    h, Bool.or_self, Bool.and_self, Bool.and_false, Bool.false_eq_true, if_false]

end Sys2Proof.Machine
end

