-- ==== Sys2Proof/Laws/PerInstr.lean ====
section
/-! SUPPORT. Statements made for every command, one lemma per constructor. -/

namespace Sys2Proof.Laws

/-- A command is well formed, and its word carries its two fields below 58 zero bits (30_encoding.md
R70, R73). -/
def Fields.Statement (i : Instr) : Prop :=
  i.wf = true ∧ opcField (encode i) = i.opc ∧ wselField (encode i) = i.wsel ∧
    zeroField (encode i) = 0

theorem Fields.dft : Fields.Statement .dft := by unfold Fields.Statement; decide
theorem Fields.idft : Fields.Statement .idft := by unfold Fields.Statement; decide
theorem Fields.cdft : Fields.Statement .cdft := by unfold Fields.Statement; decide
theorem Fields.r2p : Fields.Statement .r2p := by unfold Fields.Statement; decide
theorem Fields.lpf : Fields.Statement .lpf := by unfold Fields.Statement; decide
theorem Fields.lpfBlackman : Fields.Statement .lpfBlackman := by unfold Fields.Statement; decide
theorem Fields.lpfCustom : Fields.Statement .lpfCustom := by unfold Fields.Statement; decide
theorem Fields.hpf : Fields.Statement .hpf := by unfold Fields.Statement; decide
theorem Fields.hpfBlackman : Fields.Statement .hpfBlackman := by unfold Fields.Statement; decide
theorem Fields.hpfCustom : Fields.Statement .hpfCustom := by unfold Fields.Statement; decide
theorem Fields.bpf : Fields.Statement .bpf := by unfold Fields.Statement; decide
theorem Fields.bpfBlackman : Fields.Statement .bpfBlackman := by unfold Fields.Statement; decide
theorem Fields.bpfCustom : Fields.Statement .bpfCustom := by unfold Fields.Statement; decide
theorem Fields.winHamming : Fields.Statement .winHamming := by unfold Fields.Statement; decide
theorem Fields.winBlackman : Fields.Statement .winBlackman := by unfold Fields.Statement; decide

/-- A pair of fields in the table names the command that carries them. -/
theorem commandOf_fields {opc : BitVec 4} {wsel : BitVec 2} {i : Instr}
    (h : commandOf opc wsel = some i) : i.opc = opc ∧ i.wsel = wsel := by
  revert i
  revert opc wsel
  decide

/-- A word is its three fields put together (R70). -/
theorem word_of_fields (w : Word) : w = (zeroField w ++ wselField w) ++ opcField w := by
  apply BitVec.eq_of_getLsbD_eq
  intro j hj
  simp only [zeroField, wselField, opcField, BitVec.getLsbD_append, BitVec.getLsbD_extractLsb']
  split
  · next h => simp [h]
  · next h =>
    split
    · next h2 =>
      have : 4 + (j - 4) = j := by omega
      simp [h2, this]
    · next h2 =>
      have h3 : 6 + (j - 4 - 2) = j := by omega
      have h4 : j - 4 - 2 < 58 := by omega
      simp [h3, h4]

end Sys2Proof.Laws
end

