-- ==== Sys2Proof/Laws/Step.lean ====
section
/-! SUPPORT. What a step can do, by the host's next transaction. -/

namespace Sys2Proof.Machine

theorem step_idle {s : State} (h : s.script = []) : step s = .next s := by
  simp [step, nextTransaction, h]

theorem step_txn {s : State} {t : HostTxn} {rest : List HostTxn} (h : s.script = t :: rest) :
    step s = performTxn t { s with script := rest } := by
  simp [step, nextTransaction, h]

/-- A step that answers a next state did one of these: nothing, a read, a register write, a command, a
buffer write inside memory, or a reset. -/
theorem step_cases {s t : State} (h : step s = .next t) :
    (s.script = [] ∧ t = s) ∨
    ∃ txn rest, s.script = txn :: rest ∧
      ((∃ v, t = returnWord { s with script := rest } v) ∨
       (∃ r v, txn = .regWrite r v ∧ r ≠ 0 ∧ t = writeReg { s with script := rest } r v) ∨
       (∃ w i, txn = .regWrite 0 w ∧ decode w = .ok i ∧
          exec i { s with script := rest, cmd := w } = .next t) ∨
       (∃ w c, txn = .regWrite 0 w ∧ decode w = .error c ∧
          t = reject { s with script := rest, cmd := w } c) ∨
       (∃ a v, txn = .bufWrite a v ∧ a < Config.params.bufWords ∧
          t = { s with script := rest, mem := memWrite Config.params s.mem a v }) ∨
       (txn = .reset ∧ t = resetBlock { s with script := rest })) := by
  cases hs : s.script with
  | nil =>
    rw [step_idle hs] at h
    injection h with h
    exact .inl ⟨rfl, h.symm⟩
  | cons txn rest =>
    refine .inr ⟨txn, rest, rfl, ?_⟩
    rw [step_txn hs] at h
    cases txn with
    | regRead r =>
      simp only [performTxn] at h
      injection h with h
      exact .inl ⟨_, h.symm⟩
    | regWrite r v =>
      simp only [performTxn] at h
      split at h
      · next hr =>
        subst hr
        simp only [commandStep, issue] at h
        split at h
        · next i hi => exact .inr (.inr (.inl ⟨v, i, rfl, hi, h⟩))
        · next c hc =>
          injection h with h
          exact .inr (.inr (.inr (.inl ⟨v, c, rfl, hc, h.symm⟩)))
      · next hr =>
        injection h with h
        exact .inr (.inl ⟨r, v, rfl, hr, h.symm⟩)
    | bufRead a =>
      simp only [performTxn] at h
      split at h
      · injection h with h
        exact .inl ⟨_, h.symm⟩
      · cases h
    | bufWrite a v =>
      simp only [performTxn] at h
      split at h
      · next ha =>
        injection h with h
        exact .inr (.inr (.inr (.inr (.inl ⟨a, v, rfl, ha, h.symm⟩))))
      · cases h
    | reset =>
      simp only [performTxn] at h
      injection h with h
      exact .inr (.inr (.inr (.inr (.inr ⟨rfl, h.symm⟩))))

end Sys2Proof.Machine
end

