-- ==== Sys2Proof/Tests/Slice0.lean ====
section
/-! SUPPORT. The tests of the model, each about one word, one operation or one step, and the witnesses
of the obligations' hypotheses.  Expected results are the spec's own vectors (95_test_vectors.md, named
V-… in the comments) or the words of 30_encoding.md; the elementary functions of `bench` are small tables
of the ordinary mathematical library those vectors name. -/

namespace Sys2Proof.Machine.Tests

-- One theorem at a time: elaborated all at once, each on a thread of its own, they exceed the memory limit.
set_option Elab.async false

/-! ### Well-formedness: every check refuses an ill-formed term -/

theorem test_wf_refuses_opcode_zero : fieldsLegal 0 0 = false := by decide
theorem test_wf_refuses_opcode_nine : fieldsLegal 9 0 = false := by decide
theorem test_wf_refuses_transform_window : fieldsLegal 1 1 = false := by decide
theorem test_wf_refuses_r2p_window : fieldsLegal 4 2 = false := by decide
theorem test_wf_refuses_filter_window_three : fieldsLegal 5 3 = false := by decide
theorem test_wf_refuses_win_custom : fieldsLegal 8 2 = false := by decide
theorem test_wf_accepts_every_command :
    Instr.wf .dft && Instr.wf .idft && Instr.wf .cdft && Instr.wf .r2p && Instr.wf .lpf &&
    Instr.wf .lpfBlackman && Instr.wf .lpfCustom && Instr.wf .hpf && Instr.wf .hpfBlackman &&
    Instr.wf .hpfCustom && Instr.wf .bpf && Instr.wf .bpfBlackman && Instr.wf .bpfCustom &&
    Instr.wf .winHamming && Instr.wf .winBlackman = true := by decide

/-! ### Decoding: words written out from the fields of R70, R71, R72 (63:6 zero, 5:4 WSEL, 3:0 OPC) -/

theorem test_decode_dft : decode (0#58 ++ 0b00#2 ++ 0b0001#4) = .ok .dft := rfl
theorem test_decode_idft : decode (0#58 ++ 0b00#2 ++ 0b0010#4) = .ok .idft := rfl
theorem test_decode_cdft : decode (0#58 ++ 0b00#2 ++ 0b0011#4) = .ok .cdft := rfl
theorem test_decode_r2p : decode (0#58 ++ 0b00#2 ++ 0b0100#4) = .ok .r2p := rfl
theorem test_decode_lpf : decode (0#58 ++ 0b00#2 ++ 0b0101#4) = .ok .lpf := rfl
theorem test_decode_lpf_blackman : decode (0#58 ++ 0b01#2 ++ 0b0101#4) = .ok .lpfBlackman := rfl
theorem test_decode_lpf_custom : decode (0#58 ++ 0b10#2 ++ 0b0101#4) = .ok .lpfCustom := rfl
theorem test_decode_hpf : decode (0#58 ++ 0b00#2 ++ 0b0110#4) = .ok .hpf := rfl
theorem test_decode_hpf_blackman : decode (0#58 ++ 0b01#2 ++ 0b0110#4) = .ok .hpfBlackman := rfl
theorem test_decode_hpf_custom : decode (0#58 ++ 0b10#2 ++ 0b0110#4) = .ok .hpfCustom := rfl
theorem test_decode_bpf : decode (0#58 ++ 0b00#2 ++ 0b0111#4) = .ok .bpf := rfl
theorem test_decode_bpf_blackman : decode (0#58 ++ 0b01#2 ++ 0b0111#4) = .ok .bpfBlackman := rfl
theorem test_decode_bpf_custom : decode (0#58 ++ 0b10#2 ++ 0b0111#4) = .ok .bpfCustom := rfl
theorem test_decode_win_hamming : decode (0#58 ++ 0b00#2 ++ 0b1000#4) = .ok .winHamming := rfl
theorem test_decode_win_blackman : decode (0#58 ++ 0b01#2 ++ 0b1000#4) = .ok .winBlackman := rfl

/-- V-E5 to V-E8: no such operation. -/
theorem test_decode_bad_opcode :
    decode 0x0#64 = .error .badOpcode ∧ decode 0x9#64 = .error .badOpcode ∧
    decode 0xF#64 = .error .badOpcode ∧ decode 0x30#64 = .error .badOpcode := ⟨rfl, rfl, rfl, rfl⟩

/-- V-E9 to V-E12: a window the operation does not take. -/
theorem test_decode_bad_wsel :
    decode 0x11#64 = .error .badWsel ∧ decode 0x24#64 = .error .badWsel ∧
    decode 0x35#64 = .error .badWsel ∧ decode 0x28#64 = .error .badWsel := ⟨rfl, rfl, rfl, rfl⟩

/-- V-E13 to V-E16: a reserved bit, whatever else is wrong. -/
theorem test_decode_reserved_bits :
    decode 0x41#64 = .error .reservedBits ∧ decode 0x8000000000000001#64 = .error .reservedBits ∧
    decode 0x40#64 = .error .reservedBits ∧ decode 0x79#64 = .error .reservedBits :=
  ⟨rfl, rfl, rfl, rfl⟩

theorem test_decodeTableWord : decodeTableWord 64 0x27 = some .bpfCustom := rfl

/-! ### Numerics: the vectors of 2.3 -/

/-- A hardware to test with: AW = 16 and the complex form given; sine, cosine and arctangent are the
library's on the arguments the tests use, keep P-ZERO, and are 0 elsewhere. -/
def trigTable : List (Word × Word × Word) :=
  [(0x3FF921FB54442D18, 0x3FF0000000000000, 0x3C91A62633145C07),
   (0x400921FB54442D18, 0x3CA1A62633145C07, 0xBFF0000000000000),
   (0x4012D97C7F3321D2, 0xBFF0000000000000, 0xBCAA79394C9E8A0A),
   (0xBFF921FB54442D18, 0xBFF0000000000000, 0x3C91A62633145C07),
   (0x4010C152382D7365, 0xBFEBB67AE8584CA8, 0xBFE0000000000004)]

/-- The arctangents of 4/3, -4/3, 1 and -1. -/
def atanTable : List (Word × Word) :=
  [(0x3FF5555555555555, 0x3FEDAC670561BB4F), (0xBFF5555555555555, 0xBFEDAC670561BB4F),
   (0x3FF0000000000000, 0x3FE921FB54442D18), (0xBFF0000000000000, 0xBFE921FB54442D18)]

def bench (form : CdftForm) : Params where
  awOffset := 10
  cdftForm := form
  fsin := fun x => if isZero x then x else ((trigTable.lookup x).map Prod.fst).getD 0
  fcos := fun x => if isZero x then ONE else ((trigTable.lookup x).map Prod.snd).getD 0
  fatan := fun x => if isZero x then x else (atanTable.lookup x).getD 0
  angle := .standard
  bufInit := fun _ _ => 0x123456789ABCDEF0
  nanChoice := fun _ _ _ => 0x7FF8000000000000

abbrev ref : Params := bench .reference

/-- V-N1 to V-N4. -/
theorem test_angle :
    angleOf ref 0 5 8 = ZERO ∧ angleOf ref 3 0 8 = ZERO ∧ angleOf ref 1 1 4 = 0x3FF921FB54442D18 ∧
    angleOf ref 1 2 4 = PI ∧ angleOf ref 1 1 2 = PI ∧ angleOf ref 1 3 4 = 0x4012D97C7F3321D2 := by
  decide +kernel

/-- V-N5 to V-N8. -/
theorem test_mul_div :
    fdiv ref 0x4024000000000000 0x4048000000000000 = 0x3FCAAAAAAAAAAAAB ∧
    fdiv ref 0x403E000000000000 0x4048000000000000 = 0x3FE4000000000000 ∧
    fmul ref TWO_PI 0x3FCAAAAAAAAAAAAB = 0x3FF4F1A6C638D03F ∧
    fmul ref TWO_PI 0x3FD0000000000000 = 0x3FF921FB54442D18 := by decide +kernel

/-- V-N9, V-N10. -/
theorem test_add_sub :
    fsub ref C054 (fmul ref C046 ONE) = 0x3FB47AE147AE147C ∧
    fadd ref (fsub ref C042 HALF) C008 = 0xBC70000000000000 := by decide +kernel

/-- V-N11, V-N12. -/
theorem test_zero_signs :
    fadd ref 0 0x8000000000000000 = 0 ∧ fsub ref 0 0 = 0 ∧ fsub ref 0 0x8000000000000000 = 0 ∧
    fadd ref 0x8000000000000000 0x8000000000000000 = 0x8000000000000000 ∧
    fadd ref ONE (fneg ONE) = 0 := by decide +kernel

/-- V-N13, V-N14, V-N18. -/
theorem test_div_corners :
    fdiv ref 0 (fneg 0x4000000000000000) = 0x8000000000000000 ∧
    fdiv ref ONE TINY = 0x4415AF1D78B58C40 ∧
    fmul ref 0x6974E718D7D7625A 0x6974E718D7D7625A = 0x7FF0000000000000 := by decide +kernel

/-- V-N15, V-N16. -/
theorem test_compare_neg :
    feq 0x8000000000000000 0 = true ∧ flt 0x8000000000000000 0 = false ∧
    fge 0x8000000000000000 0 = true ∧ flt 0x7FF8000000000000 HALF = false ∧
    flt 0 0x7FF8000000000000 = false ∧ fneg 0x7FF8000000000001 = 0xFFF8000000000001 := by decide +kernel

/-- V-N17. -/
theorem test_sqrt :
    fsqrt ref (fadd ref (fmul ref 0x4008000000000000 0x4008000000000000)
      (fmul ref 0x4010000000000000 0x4010000000000000)) = 0x4014000000000000 := by decide +kernel

/-- R114: the roots of the zeros, of +inf and of -1. -/
theorem test_sqrt_corners :
    fsqrt ref 0 = 0 ∧ fsqrt ref 0x8000000000000000 = 0x8000000000000000 ∧
    fsqrt ref 0x7FF0000000000000 = 0x7FF0000000000000 ∧ isNaN (fsqrt ref (fneg ONE)) = true := by
  decide +kernel

/-- The subnormal quotient of V-X14. -/
theorem test_subnormal_quotient : fdiv ref 0x2A 0x4048000000000000 = 1 := by decide +kernel

/-! ### Commands: the vectors of 2.2 and 2.4 to 2.9, on a state right after reset -/

/-- The state after reset with the operand registers given, and words stored from address 0 and from
0x100. -/
def setup (len src0 src1 dst0 dst1 : Word) (at0 at100 : List Word) : State :=
  { State.reset with
    len := len, src0 := src0, src1 := src1, dst0 := dst0, dst1 := dst1
    mem := storeSeq ref (storeSeq ref State.reset.mem 0 at0) 0x100 at100 }

/-- The same for a filter: length, destination, window table and cutoffs. -/
def setupFilter (len dst0 wtab fs fc0 fc1 : Word) (at0 : List Word) : State :=
  { State.reset with
    len := len, dst0 := dst0, wtab := wtab, fs := fs, fc0 := fc0, fc1 := fc1
    mem := storeSeq ref State.reset.mem 0 at0 }

/-- `len` words from `base` on. -/
def words (t : State) (base len : Nat) : List Word := readSeq ref t.mem ⟨base, len⟩

/-- 48.0. -/
def F48 : Word := 0x4048000000000000
/-- 12.0. -/
def F12 : Word := 0x4028000000000000
/-- 6.0. -/
def F6 : Word := 0x4018000000000000

/-- V-D4: samples 1, 2, 3, 4. -/
theorem test_dft :
    let t := dftCommand ref (setup 4 0 0 0x200 0x300
      [0x3FF0000000000000, 0x4000000000000000, 0x4008000000000000, 0x4010000000000000] [])
    t.status = 0x01 ∧ words t 0x200 3 = [0x4024000000000000, 0xC000000000000001, 0x123456789ABCDEF0] ∧
    words t 0x300 3 = [0, 0x3FFFFFFFFFFFFFFE, 0x123456789ABCDEF0] := by decide +kernel

/-- V-X1, V-X20, V-X21, V-X23, V-X25, V-X26, V-X27. -/
theorem test_dft_checks :
    (dftCommand ref (setup 0 0 0 0 0 [] [])).status = 0x25 ∧
    (dftCommand ref (setup 8 0xFFF9 0 0x100 0x200 [] [])).status = 0x59 ∧
    (dftCommand ref (setup 8 0xFFF8 0 0x100 0x200 [] [])).status = 0x01 ∧
    (dftCommand ref (setup 0x10001 0 0 0 0 [] [])).status = 0x59 ∧
    (dftCommand ref (setup 8 0 0 7 0x20 [] [])).status = 0x69 ∧
    (dftCommand ref (setup 8 0 0 8 12 [] [])).status = 0x01 ∧
    (dftCommand ref (setup 8 0 0 0x10 0x13 [] [])).status = 0x69 := by decide +kernel

/-- V-I4. -/
theorem test_idft :
    let t := idftCommand ref (setup 4 0 0x100 0x200 0 [0x4010000000000000, 0] [0, 0xC000000000000000])
    t.status = 0x01 ∧
    words t 0x200 4 = [0x3FF0000000000000, 0x4000000000000000, 0x3FF0000000000001, 0] := by
  decide +kernel

/-- V-I1 and V-I6: the two samples of N = 2; the input words are left as they were. -/
theorem test_idft_two :
    let t := idftCommand ref (setup 2 0 0x100 0x200 0 [0x401C000000000000] [0x4014000000000000])
    words t 0x200 2 = [0x400C000000000000, 0x400C000000000000] ∧
    words t 0 1 = [0x401C000000000000] ∧ words t 0x100 1 = [0x4014000000000000] := by decide +kernel

/-- V-C1, V-C2. -/
theorem test_cdft_reference :
    let t := cdftCommand ref (setup 2 0 0x100 0x200 0x300 [0x3FF0000000000000, 0x4000000000000000]
      [0x3FE0000000000000, 0x3FD0000000000000])
    t.status = 0x01 ∧ words t 0x200 2 = [0x4008000000000000, 0xBFF0000000000000] ∧
    words t 0x300 2 = [0xBFE8000000000000, 0xBFCFFFFFFFFFFFFE] := by decide +kernel

/-- V-C1b, V-C2b. -/
theorem test_cdft_canonical :
    let t := cdftCommand (bench .canonical) (setup 2 0 0x100 0x200 0x300
      [0x3FF0000000000000, 0x4000000000000000] [0x3FE0000000000000, 0x3FD0000000000000])
    words t 0x200 2 = [0x4008000000000000, 0xBFF0000000000000] ∧
    words t 0x300 2 = [0x3FE8000000000000, 0x3FCFFFFFFFFFFFF8] := by decide +kernel

/-- V-R1 to V-R4, V-R11, V-R9. -/
theorem test_r2p :
    let t := r2pCommand ref (setup 6 0 0x100 0x200 0x300
      [0x4008000000000000, 0xC008000000000000, 0xC008000000000000, 0x4008000000000000,
       0xBFF0000000000000, 0x8000000000000000]
      [0x4010000000000000, 0x4010000000000000, 0xC010000000000000, 0xC010000000000000,
       0x8000000000000000, 0x8000000000000000])
    t.status = 0x01 ∧
    words t 0x200 6 = [0x4014000000000000, 0x4014000000000000, 0x4014000000000000, 0x4014000000000000,
      0x3FF0000000000000, 0] ∧
    words t 0x300 6 = [0x3FEDAC670561BB4F, 0x4001B6E192EBBE44, 0xC001B6E192EBBE44, 0xBFEDAC670561BB4F,
      0x400921FB54442D18, 0x8000000000000000] := by decide +kernel

/-- V-X4, V-X7, V-X7b. -/
theorem test_r2p_checks :
    (r2pCommand ref (setup 0 0 0 0 0 [] [])).status = 0x15 ∧
    (r2pCommand ref (setup 1 0 0 0 0 [] [])).status = 0x69 ∧
    (r2pCommand ref (setup 1 0 0 1 2 [] [])).status = 0x01 := by decide +kernel

/-- V-F3, the low-pass kernel. -/
theorem test_lpf :
    let t := lpfCommand ref .hamming (setupFilter 3 0x100 0 F48 F12 0 [])
    t.status = 0x01 ∧
    words t 0x100 3 = [0x3FB47AE147AE147C, 0x3FF921FB54442D18, 0x3FE8A3D70A3D70A6] := by decide +kernel

/-- V-X5, V-X8, V-X12, V-X14, V-X34. -/
theorem test_lpf_checks :
    (lpfCommand ref .hamming (setupFilter 0 0 0 0 0 0 [])).status = 0x15 ∧
    (lpfCommand ref .hamming (setupFilter 29 0x100 0 F48 0x403E000000000000 0 [])).status = 0x39 ∧
    (lpfCommand ref .hamming (setupFilter 29 0 0 0 0 0 [])).status = 0x39 ∧
    (lpfCommand ref .hamming (setupFilter 29 0 0 F48 0x2A 0 [])).status = 0x01 ∧
    (lpfCommand ref .hamming (setupFilter 4 0x100 0 F48 F12 0 [])).status = 0x03 := by decide +kernel

/-- The single tap of PROG-3 has no window factor, whichever the window. -/
theorem test_lpf_blackman :
    let t := lpfCommand ref .blackman (setupFilter 1 0x100 0 F48 0x4024000000000000 0 [])
    t.status = 0x01 ∧ words t 0x100 2 = [0x3FF4F1A6C638D03F, 0x123456789ABCDEF0] := by decide +kernel

/-- V-F3 with a table of 0.5, 123, 0.25: the side taps of the ideal kernel are 1, so they are the table's
entries; the centre's entry is not used. -/
theorem test_lpf_custom :
    let t := lpfCommand ref .custom (setupFilter 3 0x100 0x10 F48 F12 0
      ((List.replicate 16 0) ++ [HALF, 0x405EC00000000000, 0x3FD0000000000000]))
    words t 0x100 3 = [HALF, 0x3FF921FB54442D18, 0x3FD0000000000000] := by decide +kernel

/-- V-X29 and V-X30: the table is a region of a custom command only. -/
theorem test_lpf_custom_checks :
    (lpfCommand ref .custom (setupFilter 5 0x102 0x100 F48 F6 0 [])).status = 0x69 ∧
    (lpfCommand ref .hamming (setupFilter 5 0x102 0x100 F48 F6 0 [])).status = 0x01 := by decide +kernel

/-- V-F3, the high-pass kernel. -/
theorem test_hpf :
    let t := hpfCommand ref .hamming (setupFilter 3 0x100 0 F48 F12 0 [])
    t.status = 0x01 ∧
    words t 0x100 3 = [0xBFB47AE147AE147C, 0xBFE243F6A8885A30, 0xBFE8A3D70A3D70A6] := by decide +kernel

/-- The one tap 1 - 2π·c of V-F3 for M = 1 (R196), and an even length (V-F4's STATUS). -/
theorem test_hpf_blackman :
    words (hpfCommand ref .blackman (setupFilter 1 0x100 0 F48 F12 0 [])) 0x100 1 =
      [0xBFE243F6A8885A30] ∧
    (hpfCommand ref .blackman (setupFilter 4 0x100 0 F48 F12 0 [])).status = 0x03 := by decide +kernel

/-- The table of `test_lpf_custom`, negated (R196). -/
theorem test_hpf_custom :
    let t := hpfCommand ref .custom (setupFilter 3 0x100 0x10 F48 F12 0
      ((List.replicate 16 0) ++ [HALF, 0x405EC00000000000, 0x3FD0000000000000]))
    words t 0x100 3 = [0xBFE0000000000000, 0xBFE243F6A8885A30, 0xBFD0000000000000] := by decide +kernel

/-- V-F6. -/
theorem test_bpf :
    let t := bpfCommand ref .hamming (setupFilter 1 0x40 0 F48 F6 F12 [])
    t.status = 0x01 ∧ words t 0x40 1 = [0x3FE921FB54442D18] := by decide +kernel

/-- V-X15, V-X16, V-X17, V-X18, V-X19. -/
theorem test_bpf_checks :
    (bpfCommand ref .hamming (setupFilter 29 0 0 F48 F12 F6 [])).status = 0x49 ∧
    (bpfCommand ref .hamming (setupFilter 29 0 0 F48 F12 F12 [])).status = 0x49 ∧
    (bpfCommand ref .hamming (setupFilter 29 0 0 F48 0x403E000000000000 F6 [])).status = 0x39 ∧
    (bpfCommand ref .hamming (setupFilter 29 0 0 F48 F6 0x403E000000000000 [])).status = 0x39 ∧
    (bpfCommand ref .hamming
      (setupFilter 29 0x100 0 0xC048000000000000 0xC024000000000000 0xC014000000000000 [])).status = 0x01 := by
  decide +kernel

/-- V-F6 does not depend on the window. -/
theorem test_bpf_blackman :
    words (bpfCommand ref .blackman (setupFilter 1 0x40 0 F48 F6 F12 [])) 0x40 1 =
      [0x3FE921FB54442D18] := by decide +kernel

theorem test_bpf_custom :
    words (bpfCommand ref .custom (setupFilter 1 0x40 0x80 F48 F6 F12 [])) 0x40 1 =
      [0x3FE921FB54442D18] := by decide +kernel

/-- V-W2. -/
theorem test_win_hamming :
    let t := winCommand ref .hamming (setup 4 0 0 0x100 0 [] [])
    t.status = 0x03 ∧
    words t 0x100 4 = [0x3FB47AE147AE147C, 0x3FE147AE147AE148, 0x3FF0000000000000,
      0x3FE147AE147AE149] := by decide +kernel

/-- V-W1b. -/
theorem test_win_blackman :
    let t := winCommand ref .blackman (setup 1 0 0 0x100 0 [] [])
    t.status = 0x01 ∧ words t 0x100 1 = [0xBC70000000000000] := by decide +kernel

/-! ### Steps and registers -/

/-- V-S2. -/
theorem test_cap :
    readReg ref State.reset 11 = 0x10 ∧ readReg (bench .canonical) State.reset 11 = 0x110 := by decide

/-- V-S3, V-S4, V-S5, V-S6. -/
theorem test_writeReg :
    writeReg State.reset 1 0xFF = State.reset ∧ writeReg State.reset 11 0 = State.reset ∧
    writeReg State.reset 13 0x1234 = State.reset ∧
    (writeReg State.reset 2 0xFFFFFFFFFFFFFFFF).len = 0xFFFFFFFFFFFFFFFF := by decide

/-- V-S9: what is stored is read back. -/
theorem test_store_load :
    memRead ref (memWrite ref State.reset.mem 0x20 ONE) 0x20 = ONE ∧
    memRead ref (memWrite ref State.reset.mem 0x20 ONE) 0x21 = 0x123456789ABCDEF0 := by decide +kernel

/-- V-S8 as one step: an illegal word stays in CMD and STATUS tells why. -/
theorem test_step_illegal_word :
    step { State.reset with script := [.regWrite 0 0x45] } =
      .next { State.reset with cmd := 0x45, status := 0x9D } := rfl

/-- V-X1 as one step right after reset. -/
theorem test_step_first_command :
    step (State.reset.withFetchWord 64 1) = .next { State.reset with cmd := 1, status := 0x25 } := rfl

/-- V-S10: what the Reset transaction leaves of the registers. -/
theorem test_resetBlock :
    (resetBlock { State.reset with len := 5, status := 0x3 }).len = 0 ∧
    (resetBlock { State.reset with len := 5, status := 0x3 }).status = 0 := by decide

/-- The script text of R80: a line of PROG-3 parses to its transactions. -/
theorem test_script_line :
    (parseScript "wrf  FC0, 30.0\ncmd  lpf   # rejected\nld 0x100").map (List.flatMap expand) =
      some [.regWrite 9 0x403E000000000000, .regWrite 0 0x05, .bufRead 0x100] := by decide +kernel

/-! ### Witnesses: states and operands that meet the obligations' hypotheses -/

theorem buf_at_least_64 : 64 ≤ 2 ^ Config.params.aw :=
  Nat.pow_le_pow_right (show 0 < 2 by decide) (Nat.le_add_right 6 _)

/-- A state in which every command is accepted: LEN 2, regions side by side below address 10, cutoffs
6 and 12 of 48. -/
def ready : State :=
  { State.reset with
    len := 2, src0 := 0, src1 := 2, dst0 := 4, dst1 := 6, wtab := 8, fs := F48, fc0 := F6, fc1 := F12 }

theorem witness_memory : Memory.wf Config.params ready.mem = true := rfl

theorem ratio_six : RatioOk F6 F48 := by
  constructor <;> decide +kernel

theorem ratio_twelve : RatioOk F12 F48 := by
  constructor <;> decide +kernel

theorem ready_ratios (i : Instr) : RatiosOk i ready := ⟨fun _ => ratio_six, fun _ => ⟨ratio_six, ratio_twelve⟩⟩

theorem ready_order (i : Instr) : OrderOk i ready := fun _ => by decide +kernel

theorem ready_length (i : Instr) : LengthOk i ready := ⟨fun _ => by decide, fun _ => by decide⟩

theorem ready_fit (i : Instr) : RegionsFit i ready := by
  have h := buf_at_least_64
  intro r hr
  have h1 : r.1 + r.2 ≤ 10 := by
    revert r
    cases i <;> decide
  unfold Fits
  omega

theorem ready_apart (i : Instr) : RegionsApart i ready := by
  unfold RegionsApart Apart
  cases i <;> decide

/-- DftComputesEveryBin, IdftComputesEverySample, CdftComputesEveryBin, RectToPolarConvertsEveryPair, the
kernel and window statements, MagnitudeIsNeverNegative, SpectralInversionIdentity and the last clause of
StatusTellsTheFirstFailure: every command is accepted in `ready`. -/
theorem witness_accepted (i : Instr) : Memory.wf Config.params ready.mem = true ∧ Accepted i ready :=
  ⟨rfl, ready_length i, ready_ratios i, ready_order i, ready_fit i, ready_apart i⟩

/-- The hypotheses that a command answers a next state, of the statements over all commands
(CommandsAreIdempotent, ResultsDependOnlyOnOperands with both states the same,
RegistersOutsideTheRowAreNotRead, SpectralInversionIdentity, MagnitudeIsNeverNegative). -/
theorem witness_exec_next (i : Instr) : ∃ t, exec i ready = .next t := ⟨_, exec_accepted (witness_accepted i).2⟩

/-- ResultsDependOnlyOnOperands with two states that are not the same. -/
theorem witness_ResultsDependOnlyOnOperands :
    ∃ s' t t', s' ≠ ready ∧ s'.mem.cells = [] ∧
      (∀ r ∈ inputRegions .dft ready, ∀ j, j < r.2 → word ready (r.1 + j) = word s' (r.1 + j)) ∧
      exec .dft ready = .next t ∧ exec .dft s' = .next t' :=
  ⟨{ ready with cmd := 1, status := 0x25 }, _, _, by decide, rfl, fun _ _ _ _ => rfl,
    exec_accepted (witness_accepted .dft).2, exec_accepted (s := { ready with cmd := 1, status := 0x25 })
      (witness_accepted .dft).2⟩

/-- The clauses of DecodeFollowsTheTestOrder at their boundaries. -/
theorem witness_DecodeFollowsTheTestOrder :
    (0x45#64).extractLsb' 6 58 ≠ 0 ∧
    ((0x0F#64).extractLsb' 6 58 = 0 ∧ 9 ≤ ((0x0F#64).extractLsb' 0 4).toNat) ∧
    ((0x14#64).extractLsb' 6 58 = 0 ∧ ((0x14#64).extractLsb' 0 4).toNat = 4 ∧
      ((0x14#64).extractLsb' 4 2).toNat ≠ 0) ∧
    ((0x37#64).extractLsb' 6 58 = 0 ∧ ((0x37#64).extractLsb' 0 4).toNat = 7 ∧
      ((0x37#64).extractLsb' 4 2).toNat = 3) ∧
    ((0x28#64).extractLsb' 6 58 = 0 ∧ ((0x28#64).extractLsb' 0 4).toNat = 8 ∧
      2 ≤ ((0x28#64).extractLsb' 4 2).toNat) ∧
    ((0x18#64).extractLsb' 6 58 = 0 ∧ ((0x18#64).extractLsb' 0 4).toNat = 8 ∧
      ((0x18#64).extractLsb' 4 2).toNat ≤ 1) := by decide

/-- CommandWriteRunsTheDecodedCommand, CmdReadsBackTheWordWritten: the host is about to write a legal
word. -/
theorem witness_CommandWriteRunsTheDecodedCommand :
    (presentCommand ready 0x27).script = .regWrite 0 0x27 :: [] ∧ decode 0x27 = .ok .bpfCustom :=
  ⟨rfl, rfl⟩

/-- ErrorEntryWritesOnlyCmdAndStatus: an illegal word, and a command that fails a check. -/
theorem witness_ErrorEntryWritesOnlyCmdAndStatus :
    ((presentCommand ready 0x45).script = .regWrite 0 0x45 :: [] ∧
      decode 0x45 = .error .reservedBits) ∧
    (∃ t, (presentCommand State.reset 1).script = .regWrite 0 1 :: [] ∧
      step (presentCommand State.reset 1) = .next t ∧ statusEClass t.status ≠ 0) :=
  ⟨⟨rfl, rfl⟩, _, rfl, rfl, by decide⟩

/-- EveryExpressibleTransactionCompletes. -/
theorem witness_EveryExpressibleTransactionCompletes :
    ScriptOk { ready with script := [.regRead 15, .regWrite 0 0x45, .reset] } := rfl

/-- AddressBeyondThePortFaults: the first address beyond the port. -/
theorem witness_AddressBeyondThePortFaults :
    ∃ a : Nat, ∃ s s' : State, 2 ^ Config.params.aw ≤ a ∧ s.script = .bufRead a :: [] ∧
      s'.script = .bufWrite a 0 :: [] :=
  ⟨2 ^ Config.params.aw, { ready with script := [.bufRead (2 ^ Config.params.aw)] },
    { ready with script := [.bufWrite (2 ^ Config.params.aw) 0] }, Nat.le_refl _, rfl, rfl⟩

/-- NothingHappensBetweenTransactions. -/
theorem witness_NothingHappensBetweenTransactions : State.reset.script = [] := rfl

/-- RegReadReturnsTheRegister, and the three clauses of RegWriteStoresAllBits at both ends of each
range. -/
theorem witness_registers (r : Fin 16) (v : Word) :
    (∃ s : State, s.script = .regRead r :: []) ∧ (∃ s : State, s.script = .regWrite r v :: []) :=
  ⟨⟨{ ready with script := [.regRead r] }, rfl⟩, ⟨{ ready with script := [.regWrite r v] }, rfl⟩⟩

/-- BufReadReturnsTheWord, BufWriteReplacesOneWord: the first and the last word of every hardware's
memory. -/
theorem witness_buffer :
    0 < 2 ^ Config.params.aw ∧ 2 ^ Config.params.aw - 1 < 2 ^ Config.params.aw ∧
    Memory.wf Config.params ready.mem = true ∧
    (∃ s s' : State, s.mem = ready.mem ∧ s.script = .bufRead 0 :: [] ∧ s'.mem = ready.mem ∧
      s'.script = .bufWrite 0 5 :: []) := by
  have h := buf_at_least_64
  exact ⟨by omega, by omega, rfl, { ready with script := [.bufRead 0] },
    { ready with script := [.bufWrite 0 5] }, rfl, rfl, rfl, rfl⟩

/-- ResetTransactionClearsTheBlock. -/
theorem witness_ResetTransactionClearsTheBlock :
    ({ ready with script := [.reset, .regRead 1] } : State).script = .reset :: [.regRead 1] := rfl

/-- StepKeepsTheInvariant: a command that fails its check, from a state that meets the invariant. -/
theorem witness_StepKeepsTheInvariant :
    Inv (presentCommand State.reset 1) ∧ ∃ t, step (presentCommand State.reset 1) = .next t :=
  ⟨⟨rfl, by decide⟩, _, rfl⟩

/-- The five failing clauses of StatusTellsTheFirstFailure, in order. -/
theorem witness_StatusTellsTheFirstFailure :
    ¬ LengthOk .dft { ready with len := 1 } ∧ ¬ LengthOk .lpf { ready with len := 0 } ∧
    (LengthOk .lpf { ready with fc0 := 0 } ∧ ¬ RatiosOk .lpf { ready with fc0 := 0 }) ∧
    (LengthOk .bpf { ready with fc1 := F6 } ∧ RatiosOk .bpf { ready with fc1 := F6 } ∧
      ¬ OrderOk .bpf { ready with fc1 := F6 }) ∧
    (LengthOk .lpf { ready with dst0 := 0xFFFFFFFFFFFFFFFF } ∧
      RatiosOk .lpf { ready with dst0 := 0xFFFFFFFFFFFFFFFF } ∧
      OrderOk .lpf { ready with dst0 := 0xFFFFFFFFFFFFFFFF } ∧
      ¬ RegionsFit .lpf { ready with dst0 := 0xFFFFFFFFFFFFFFFF }) ∧
    (LengthOk .r2p { ready with dst0 := 1 } ∧ RatiosOk .r2p { ready with dst0 := 1 } ∧
      OrderOk .r2p { ready with dst0 := 1 } ∧ RegionsFit .r2p { ready with dst0 := 1 } ∧
      ¬ RegionsApart .r2p { ready with dst0 := 1 }) := by
  refine ⟨?_, ?_, ⟨?_, ?_⟩, ⟨?_, ?_, ?_⟩, ⟨?_, ?_, ?_, ?_⟩, ⟨?_, ?_, ?_, ?_, ?_⟩⟩
  · intro h
    exact absurd (h.1 (.inl rfl)) (by decide)
  · intro h
    refine absurd (h.2 ?_) (by decide)
    unfold IsTransform
    decide
  · exact ⟨fun _ => by decide, fun _ => by decide⟩
  · intro h
    exact absurd (h.1 (.inl rfl)).1 (by decide +kernel)
  · exact ⟨fun _ => by decide, fun _ => by decide⟩
  · exact ⟨fun _ => ratio_six, fun _ => ⟨ratio_six, ratio_six⟩⟩
  · intro h
    exact absurd (h (.inl rfl)) (by decide +kernel)
  · exact ⟨fun _ => by decide, fun _ => by decide⟩
  · exact ⟨fun _ => ratio_six, fun _ => ⟨ratio_six, ratio_twelve⟩⟩
  · exact fun _ => by decide +kernel
  · intro h
    have h1 := h (0xFFFFFFFFFFFFFFFF, 2) (by simp [inputRegions, outputRegions, ready])
    have h2 : 2 ^ Config.params.aw ≤ 2 ^ 32 := by
      refine Nat.pow_le_pow_right (by decide) ?_
      have := Config.params.awOffset.isLt
      unfold Params.aw
      omega
    unfold Fits at h1
    omega
  · exact ⟨fun _ => by decide, fun _ => by decide⟩
  · exact ⟨fun _ => ratio_six, fun _ => ⟨ratio_six, ratio_twelve⟩⟩
  · exact fun _ => by decide +kernel
  · have h := buf_at_least_64
    intro r hr
    have h1 : r.1 + r.2 ≤ 10 := by
      revert r
      decide
    unfold Fits
    omega
  · unfold RegionsApart Apart
    decide

/-- ShortLengthsAreRejected. -/
theorem witness_ShortLengthsAreRejected :
    ({ ready with len := 1 } : State).len.toNat < 2 ∧ State.reset.len.toNat = 0 := by decide

/-- BadCutoffsAreRejected, the clauses on one ratio: a ratio of exactly 0.5, and a ratio that is a NaN. -/
theorem witness_BadCutoffsAreRejected_ratio :
    (0 < ({ ready with fc0 := 0x4038000000000000 } : State).len.toNat ∧
      ¬ RatioOk ({ ready with fc0 := 0x4038000000000000 } : State).fc0 F48) ∧
    (0 < ({ ready with fs := 0, fc0 := 0 } : State).len.toNat ∧ ¬ RatioOk 0 0) := by
  refine ⟨⟨by decide, fun h => absurd h.2 (by decide +kernel)⟩, by decide, fun h => ?_⟩
  have hn : isNaN (fdiv Config.params 0 0) = true := by
    have h1 : fdiv Config.params 0 0 = nanResult Config.params .div 0 0 := rfl
    rw [h1]
    unfold nanResult
    split
    · assumption
    · decide
  have h2 := h.2
  unfold flt at h2
  rw [hn] at h2
  simp at h2

/-- BadCutoffsAreRejected, the clause on the order: two equal cutoffs in range. -/
theorem witness_BadCutoffsAreRejected_order :
    0 < ({ ready with fc1 := F6 } : State).len.toNat ∧
    RatioOk ({ ready with fc1 := F6 } : State).fc0 ({ ready with fc1 := F6 } : State).fs ∧
    RatioOk ({ ready with fc1 := F6 } : State).fc1 ({ ready with fc1 := F6 } : State).fs ∧
    flt ({ ready with fc1 := F6 } : State).fc0 ({ ready with fc1 := F6 } : State).fc1 = false :=
  ⟨by decide, ratio_six, ratio_six, by decide +kernel⟩

/-- TabulatedWindowEqualsBuiltIn: a table in memory with the weights of each built-in window. -/
theorem witness_TabulatedWindowEqualsBuiltIn (w : WSel) (hw : w ≠ .custom) :
    ∃ s, RegionsFit .lpfCustom s ∧ RegionsApart .lpfCustom s ∧
      ∀ j, j < s.len.toNat → word s (s.wtab.toNat + j) = weight w s j s.len.toNat := by
  refine ⟨{ ready with mem := storeSeq Config.params ready.mem 8 [weight w ready 0 2, weight w ready 1 2] },
    ready_fit .lpfCustom, ready_apart .lpfCustom, fun j hj => ?_⟩
  have h64 := buf_at_least_64
  have hj : j < 2 := hj
  have h := memRead_storeSeq_inside Config.params witness_memory 8
    [weight w ready 0 2, weight w ready 1 2]
    (show 8 + 2 ≤ 2 ^ Config.params.aw by omega) (j := j) hj
  refine Eq.trans h ?_
  match j, hj with
  | 0, _ => cases w <;> first | rfl | exact absurd rfl hw
  | 1, _ => cases w <;> first | rfl | exact absurd rfl hw

/-- A hardware with a sine that is a zero, a cosine that is 1 and an arctangent that is a zero: the least
that P-ZERO, P-RANGE and P-ODD ask for. -/
def tame : Params :=
  { bench .reference with
    fsin := fun x => pack (signOf x) 0
    fcos := fun _ => ONE
    fatan := fun x => pack (signOf x) 0 }

/-- DcBinIsTheSequentialSum, FirstWindowWeights, PhaseOnTheRealAxis: P-ZERO, with samples of each
kind. -/
theorem witness_PZero :
    PZero tame ∧ tame.angle = .standard ∧ 2 ≤ [ONE, HALF].length ∧
    (isNaN ONE = false ∧ isFinite ONE = true ∧ isNaN HALF = false ∧ isFinite HALF = true) ∧
    isFinite 0x7FF0000000000000 = false ∧ isNaN 0x7FF8000000000000 = true ∧
    isZero 0x8000000000000000 = true ∧ flt (fneg ONE) ZERO = true ∧ flt ZERO ONE = true := by
  refine ⟨?_, rfl, ?_⟩
  · unfold PZero
    decide +kernel
  · decide +kernel

theorem tame_odd : POdd tame := by
  intro x _
  have h : ∀ b : Bool, pack (!b) 0 = fneg (pack b 0) := by decide
  have hs : signOf (fneg x) = !signOf x := by simp [signOf, fneg]
  refine ⟨?_, rfl, ?_⟩ <;> simp [tame, hs, h]

theorem tame_range : PRange tame := by
  have h : ∀ b : Bool, fge (pack b 0) (fneg ONE) = true ∧ fge ONE (pack b 0) = true ∧
      fge (pack b 0) (fneg HALF_PI) = true ∧ fge HALF_PI (pack b 0) = true := by decide +kernel
  constructor
  · intro x _
    exact ⟨(h _).1, (h _).2.1, (by decide +kernel : fge ONE (fneg ONE) = true),
      (by decide +kernel : fge ONE ONE = true)⟩
  · intro x _
    exact ⟨(h _).2.2.1, (h _).2.2.2⟩

/-- ReferenceRealInputGivesZeroImaginary, SymmetricTableGivesSymmetricKernel and
ReferenceImaginaryIgnoresRealInput. -/
theorem witness_tame :
    tame.cdftForm = .reference ∧ tame.angle = .standard ∧ PRange tame ∧ POdd tame ∧
    (isZero ZERO = true ∧ isZero 0x8000000000000000 = true) ∧
    flt ZERO 0x3FD0000000000000 = true ∧ flt 0x3FD0000000000000 HALF = true ∧
    (∀ i, i < 3 → [HALF, ONE, HALF].getD i ZERO = [HALF, ONE, HALF].getD (3 - 1 - i) ZERO) :=
  ⟨rfl, rfl, tame_range, tame_odd, by decide +kernel, by decide +kernel, by decide +kernel,
    by decide +kernel⟩

/-- A hardware with the properties `tame` lacks: a NaN for a NaN and for an infinite angle, and half of PI
for the infinities. -/
def tidy : Params :=
  { bench .reference with
    fsin := fun x => if isFinite x then pack (signOf x) 0 else 0x7FF8000000000000
    fcos := fun x => if isFinite x then ONE else 0x7FF8000000000000
    fatan := fun x =>
      if isNaN x then x else if isInf x then (if signOf x then fneg HALF_PI else HALF_PI)
      else pack (signOf x) 0 }

theorem tidy_nan : PNan tidy := by
  have h : isNaN 0x7FF8000000000000#64 = true := by decide
  have hn : ∀ x, isNaN x = true → isFinite x = false := by
    intro x hx
    unfold isNaN at hx
    unfold isFinite
    simp at hx
    simp [hx]
  have hi : ∀ x, isInf x = true → isFinite x = false := by
    intro x hx
    unfold isInf at hx
    unfold isFinite
    simp at hx
    simp [hx]
  constructor
  · intro x hx
    simp [tidy, hn x hx, hx, h]
  · intro x hx
    simp [tidy, hi x hx, h]

theorem tidy_range : PRange tidy := by
  have h : ∀ b : Bool, fge (pack b 0) (fneg ONE) = true ∧ fge ONE (pack b 0) = true ∧
      fge (pack b 0) (fneg HALF_PI) = true ∧ fge HALF_PI (pack b 0) = true := by decide +kernel
  have hp : ∀ b : Bool, fge (if b then fneg HALF_PI else HALF_PI) (fneg HALF_PI) = true ∧
      fge HALF_PI (if b then fneg HALF_PI else HALF_PI) = true := by decide +kernel
  have h1 : fge ONE (fneg ONE) = true ∧ fge ONE ONE = true := by decide +kernel
  constructor
  · intro x hx
    simp only [tidy, hx, if_true]
    exact ⟨(h _).1, (h _).2.1, h1⟩
  · intro x hx
    simp only [tidy, hx, Bool.false_eq_true, if_false]
    split
    · exact hp _
    · exact ⟨(h _).2.2.1, (h _).2.2.2⟩

theorem tidy_sign : PSign tidy := by
  have h : ∀ b : Bool, isNaN (pack b 0) = false ∧ signOf (pack b 0) = b := by decide
  have hp : ∀ b : Bool, isNaN (if b then fneg HALF_PI else HALF_PI) = false ∧
      signOf (if b then fneg HALF_PI else HALF_PI) = b := by decide
  intro x hx
  simp only [tidy, hx, Bool.false_eq_true, if_false]
  split
  · exact hp _
  · exact h _

/-- PhaseStaysWithinPi at the corner that needs P-ZERO, NanPairGivesNanPolar, and
InfiniteQuotientGivesHalfPi at V-R15 and, with a negative real part, at (-1, inf). -/
theorem witness_tidy :
    PZero tidy ∧ PNan tidy ∧ PRange tidy ∧ PSign tidy ∧ PAtanInf tidy ∧
    isNaN (polarPhase tidy (fneg ONE) 0x8000000000000000) = false ∧
    isNaN 0x7FF8000000000000 = true ∧
    isInf (fdiv tidy 0x7E37E43C8800759C
      (if feq 0x8000000000000000 ZERO then TINY else 0x8000000000000000)) = true ∧
    isInf (fdiv tidy 0x7FF0000000000000 (if feq (fneg ONE) ZERO then TINY else fneg ONE)) = true := by
  refine ⟨?_, tidy_nan, tidy_range, tidy_sign, ?_, ?_⟩
  · unfold PZero
    decide +kernel
  · unfold PAtanInf
    decide +kernel
  · decide +kernel

/-- The kinds of word of ArithmeticRoundsToNearestEven, SquareRootIsCorrectlyRounded,
SpecialCasesOfTheOperations and ComparisonsFollowTheValues. -/
theorem witness_kinds_of_word :
    (isFinite ONE = true ∧ isZero ONE = false ∧ signOf ONE = false ∧ scaled ONE + scaled HALF ≠ 0) ∧
    (isFinite 1 = true ∧ isZero 1 = false) ∧ (isZero 0x8000000000000000 = true) ∧
    (isInf 0x7FF0000000000000 = true ∧ isInf 0xFFF0000000000000 = true ∧
      signOf 0x7FF0000000000000 ≠ signOf 0xFFF0000000000000) ∧
    (signOf 0x8000000000000001 = true ∧ isZero 0x8000000000000001 = false) ∧
    (isNaN 0x7FF0000000000001 = true) ∧ scaled ONE + scaled (fneg ONE) = 0 := by decide +kernel

/-- DefaultAngleIsZeroOnTheAxes: the last bin and the last sample of the longest length. -/
theorem witness_DefaultAngleIsZeroOnTheAxes :
    ref.angle = .standard ∧ 0 < 2 ^ 32 ∧ 2 ^ 32 ≤ 2 ^ 32 ∧ 2 ^ 32 - 1 < 2 ^ 32 :=
  ⟨rfl, by norm_num, le_refl _, by norm_num⟩

/-- NegatedDivisorNegatesTheQuotient, IntegerConversionIsExact. -/
theorem witness_quotient :
    isNaN (fdiv ref ONE 0x8000000000000000) = false ∧ (-9007199254740992 : Int).natAbs ≤ 2 ^ 53 := by
  refine ⟨by decide +kernel, by norm_num⟩

end Sys2Proof.Machine.Tests
end

section
/-! The state: what a command can change, what every step keeps, and what the registers read right
after reset. -/

namespace Sys2Proof.Machine

/-! ### The frame of a command -/

theorem onlyResults_reject (s : State) (c : Cause) : OnlyResults s (reject s c) := rfl

theorem onlyResults_commit (p : Params) (s : State) (o : Operands) (e : Bool)
    (outs : List (List Word)) : OnlyResults s (commit p s o e outs) := by
  simp only [OnlyResults]
  rw [← storeAll_resets p s.mem o.outs outs]
  rfl

theorem OnlyResults.cmd_eq {s t : State} (h : OnlyResults s t) : t.cmd = s.cmd := by rw [h]

theorem onlyOutputsWritten_reject (i : Instr) (s : State) (c : Cause) :
    OnlyOutputsWritten i s (reject s c) := fun _ _ => rfl

theorem onlyOutputsWritten_commit (i : Instr) (s : State) (e : Bool) (ins : List (List Word)) :
    OnlyOutputsWritten i s
      (commit Config.params s (tableOperands i s) e (tableOutputs i s ins)) := by
  intro a ha
  exact memRead_storeAll_outside Config.params s.mem _ _ (tableOutputs_lengths i s ins)
    fun r hr => ha _ (mem_asRegions.mp hr)

/-- Settles O19, from the commit of an accepted command and the error entry of every other one. -/
theorem commandsWriteOnlyStatusAndOutputs : Obligations.CommandsWriteOnlyStatusAndOutputs := by
  intro i s
  by_cases hacc : Accepted i s
  · exact ⟨_, exec_accepted hacc, onlyResults_commit _ _ _ _ _, onlyOutputsWritten_commit i s _ _⟩
  · obtain ⟨c, hexec, -⟩ := exec_rejected hacc
    exact ⟨_, hexec, onlyResults_reject s c, onlyOutputsWritten_reject i s c⟩

/-! ### CMD after a command step -/

/-- The command step ends with the word in CMD, whatever becomes of the word (R21, R93). -/
theorem commandStep_stores_cmd (s : State) (w : Word) :
    ∃ t, commandStep s w = .next t ∧ t.cmd = w := by
  cases hdec : decode w with
  | error c => exact ⟨reject { s with cmd := w } c, by simp [commandStep, issue, hdec], rfl⟩
  | ok i =>
    obtain ⟨t, hexec, hframe, -⟩ := commandsWriteOnlyStatusAndOutputs i { s with cmd := w }
    exact ⟨t, by simp [commandStep, issue, hdec, hexec], hframe.cmd_eq⟩

/-- Settles O11: the host's write is the command step, and no command changes CMD. -/
theorem cmdReadsBackTheWordWritten : Obligations.CmdReadsBackTheWordWritten := by
  intro s w rest hscript
  rw [step_txn hscript]
  exact commandStep_stores_cmd { s with script := rest } w

/-! ### The invariant -/

@[simp] theorem wf_nil (p : Params) (n : Nat) : Memory.wf p ⟨n, []⟩ = true := rfl

theorem zero_mem_legalStatusWords : 0 ∈ legalStatusWords := by simp [legalStatusWords]

theorem inv_reject {s : State} (hmem : Memory.wf Config.params s.mem = true) (c : Cause) :
    Inv (reject s c) := ⟨hmem, rejectedStatus_legal c⟩

theorem inv_commit {s : State} (hmem : Memory.wf Config.params s.mem = true) {o : Operands}
    {outs : List (List Word)} (hlen : LengthsMatch o outs)
    (hfit : ∀ r ∈ o.outs, r.base + r.len ≤ Config.params.bufWords) (e : Bool) :
    Inv (commit Config.params s o e outs) :=
  ⟨wf_storeAll Config.params hmem o.outs outs hlen hfit, acceptedStatus_legal e⟩

/-- A command answers a legal STATUS word whatever STATUS held before, so it needs only the memory
half of the invariant. -/
theorem exec_inv {i : Instr} {s t : State} (hexec : exec i s = .next t)
    (hmem : Memory.wf Config.params s.mem = true) : Inv t := by
  obtain ⟨c, hrej⟩ | ⟨o, e, outs, hcom, hlen, hfit, -⟩ := exec_cases i s
  · cases hrej.symm.trans hexec
    exact inv_reject hmem c
  · cases hcom.symm.trans hexec
    exact inv_commit hmem hlen (fun r hr => hfit r (List.mem_append_right _ hr)) e

theorem inv_resetBlock (s : State) : Inv (resetBlock s) := ⟨wf_nil _ _, zero_mem_legalStatusWords⟩

/-- Settles O17: no cell is listed at reset and STATUS is 0. -/
theorem resetMeetsTheInvariant : Obligations.ResetMeetsTheInvariant :=
  ⟨wf_nil _ _, zero_mem_legalStatusWords⟩

/-- Settles O18, by the transaction the step performs: a read or a register write leaves memory and
STATUS alone, a buffer write changes one word inside memory, and a command or a reset gives STATUS a
legal word of its own. -/
theorem stepKeepsTheInvariant : Obligations.StepKeepsTheInvariant := by
  rintro s t ⟨hmem, hstatus⟩ hstep
  obtain ⟨-, rfl⟩ | ⟨txn, rest, -, hcases⟩ := step_cases hstep
  · exact ⟨hmem, hstatus⟩
  obtain ⟨v, rfl⟩ | ⟨r, v, -, -, rfl⟩ | ⟨w, i, -, -, hexec⟩ | ⟨w, c, -, -, rfl⟩ |
    ⟨a, v, -, ha, rfl⟩ | ⟨-, rfl⟩ := hcases
  · exact ⟨hmem, hstatus⟩
  · exact ⟨by rwa [writeReg_mem], by rwa [writeReg_status]⟩
  · exact exec_inv hexec hmem
  · exact inv_reject hmem c
  · exact ⟨wf_memWrite Config.params hmem ha v, hstatus⟩
  · exact inv_resetBlock _

/-! ### CAP -/

theorem aw_le (p : Params) : p.aw ≤ 32 := by
  have := p.awOffset.isLt
  unfold Params.aw
  omega

@[simp] theorem readReg_cap (p : Params) (s : State) : readReg p s 11 = capWord p := rfl

theorem capWord_aw (p : Params) : ((capWord p).extractLsb' 0 8).toNat = p.aw := by
  have := aw_le p
  rw [capWord, BitVec.extractLsb'_append_eq_right, BitVec.toNat_ofNat]
  omega

theorem capWord_form (p : Params) : (capWord p).getLsbD 8 = true ↔ p.cdftForm = .canonical := by
  rw [capWord, BitVec.getLsbD_append, if_neg (by decide)]
  cases p.cdftForm <;> decide

theorem capWord_high (p : Params) : (capWord p).extractLsb' 9 55 = 0 := by
  rw [capWord, BitVec.extractLsb'_append_eq_of_le (by decide)]
  exact BitVec.extractLsb'_append_eq_left

/-- Settles O12: the three fields of the CAP word, and a write to register 11 stores nothing. -/
theorem capReportsTheBuild : Obligations.CapReportsTheBuild := by
  intro s
  rw [readReg_cap]
  refine ⟨capWord_aw _, capWord_form _, capWord_high _, fun v rest hscript => ?_⟩
  rw [step_txn hscript]
  rfl

/-! ### The reset state -/

theorem readReg_reset (p : Params) {r : Fin 16} (hr : r.val ≠ 11) :
    readReg p State.reset r = 0 := by
  unfold readReg
  split
  case h_12 hcap => exact absurd hcap hr
  all_goals rfl

/-- Settles O15: the registers one by one, CAP from no state at all, and no buffer word listed. -/
theorem resetStateReadsZero : Obligations.ResetStateReadsZero :=
  ⟨fun _ hr => readReg_reset _ hr, fun _ => rfl, fun _ => rfl⟩

/-! ### STATUS is write-only to a command -/

/-- Both ends of a command replace STATUS, and the inputs come from memory. -/
theorem runPhases_ignores_status (p : Params) (s : State) (w : Word) (lc pc : Option Cause)
    (o : Operands) (e : Bool) (compute : List (List Word) → List (List Word)) :
    runPhases p { s with status := w } lc pc o e compute = runPhases p s lc pc o e compute := by
  cases hfail : firstFailure p lc pc o with
  | some c =>
    rw [runPhases_reject hfail, runPhases_reject hfail]
    rfl
  | none =>
    rw [runPhases_commit hfail, runPhases_commit hfail]
    rfl

/-- Settles O25: a command's plan depends on the operand registers alone, and STATUS is not one. -/
theorem noCommandReadsStatus : Obligations.NoCommandReadsStatus := by
  intro i s w
  obtain ⟨lc, pc, o, e, compute, hplan, -⟩ := exec_plan i s
  have hself : SameOperands s s := by simp [SameOperands]
  have hother : SameOperands s { s with status := w } := hself
  rw [hplan _ hother, hplan _ hself, runPhases_ignores_status]

end Sys2Proof.Machine
end

section
/-! Encoding and decoding: a word decodes exactly when its fields name a command, and the encoder is
the inverse of the decoder (30_encoding.md R70 to R74). -/

namespace Sys2Proof.Laws

/-! ### The fields of a command -/

theorem fields_statement (i : Instr) : Fields.Statement i := by
  cases i with
  | dft => exact Fields.dft
  | idft => exact Fields.idft
  | cdft => exact Fields.cdft
  | r2p => exact Fields.r2p
  | lpf => exact Fields.lpf
  | lpfBlackman => exact Fields.lpfBlackman
  | lpfCustom => exact Fields.lpfCustom
  | hpf => exact Fields.hpf
  | hpfBlackman => exact Fields.hpfBlackman
  | hpfCustom => exact Fields.hpfCustom
  | bpf => exact Fields.bpf
  | bpfBlackman => exact Fields.bpfBlackman
  | bpfCustom => exact Fields.bpfCustom
  | winHamming => exact Fields.winHamming
  | winBlackman => exact Fields.winBlackman

theorem opcodeKnown_iff {opc : BitVec 4} :
    opcodeKnown opc = true ↔ 1 ≤ opc.toNat ∧ opc.toNat ≤ 8 := by
  simp [opcodeKnown]

theorem windowAllowed_iff {opc : BitVec 4} {wsel : BitVec 2} :
    windowAllowed opc wsel = true ↔
      (opc.toNat ≤ 4 ∧ wsel.toNat = 0) ∨ (5 ≤ opc.toNat ∧ opc.toNat ≤ 7 ∧ wsel.toNat ≤ 2) ∨
        (8 ≤ opc.toNat ∧ wsel.toNat ≤ 1) := by
  unfold windowAllowed
  split
  · rw [beq_iff_eq]
    omega
  · split <;> rw [decide_eq_true_iff] <;> omega

/-- R73's table names a command for the legal pairs of fields and for no other. -/
theorem commandOf_isSome (opc : BitVec 4) (wsel : BitVec 2) :
    (commandOf opc wsel).isSome = fieldsLegal opc wsel := by
  revert opc wsel
  decide

theorem commandOf_opc_wsel (i : Instr) : commandOf i.opc i.wsel = some i := by
  cases i <;> rfl

theorem commandOf_eq_some_iff {opc : BitVec 4} {wsel : BitVec 2} {i : Instr} :
    commandOf opc wsel = some i ↔ i.opc = opc ∧ i.wsel = wsel := by
  refine ⟨commandOf_fields, ?_⟩
  rintro ⟨rfl, rfl⟩
  exact commandOf_opc_wsel i

/-! ### The decoder, test by test (R74) -/

theorem decode_reservedBits {w : Word} (hzero : zeroField w ≠ 0) :
    decode w = .error .reservedBits := if_pos hzero

theorem decode_badOpcode {w : Word} (hzero : zeroField w = 0)
    (hopc : opcodeKnown (opcField w) = false) : decode w = .error .badOpcode := by
  rw [← Bool.not_eq_true, opcodeKnown_iff] at hopc
  have hbad : (opcField w).toNat = 0 ∨ 9 ≤ (opcField w).toNat := by omega
  simp only [decode, hzero, hbad, ne_eq, not_true_eq_false, if_false, if_true]

/-- Past the first two tests the table decides. -/
theorem decode_of_known {w : Word} (hzero : zeroField w = 0)
    (hopc : opcodeKnown (opcField w) = true) :
    decode w = (commandOf (opcField w) (wselField w)).elim (.error .badWsel) .ok := by
  rw [opcodeKnown_iff] at hopc
  have hgood : ¬((opcField w).toNat = 0 ∨ 9 ≤ (opcField w).toNat) := by omega
  simp only [decode, hzero, hgood, ne_eq, not_true_eq_false, if_false]
  cases commandOf (opcField w) (wselField w) <;> rfl

theorem decode_badWsel {w : Word} (hzero : zeroField w = 0)
    (hopc : opcodeKnown (opcField w) = true)
    (hwsel : windowAllowed (opcField w) (wselField w) = false) : decode w = .error .badWsel := by
  have hnone : commandOf (opcField w) (wselField w) = none := by
    rw [← Option.not_isSome_iff_eq_none, commandOf_isSome, fieldsLegal, hwsel, Bool.and_false]
    exact Bool.false_ne_true
  rw [decode_of_known hzero hopc, hnone, Option.elim_none]

/-- A word decodes to a command exactly when its reserved bits are 0 and its fields are the
command's. -/
theorem decode_eq_ok_iff {w : Word} {i : Instr} :
    decode w = .ok i ↔ zeroField w = 0 ∧ i.opc = opcField w ∧ i.wsel = wselField w := by
  constructor
  · intro h
    have hzero : zeroField w = 0 := by
      by_contra hne
      rw [decode_reservedBits hne] at h
      cases h
    have hopc : opcodeKnown (opcField w) = true := by
      by_contra hbad
      rw [decode_badOpcode hzero (eq_false_of_ne_true hbad)] at h
      cases h
    rw [decode_of_known hzero hopc] at h
    refine ⟨hzero, commandOf_eq_some_iff.mp ?_⟩
    cases hcmd : commandOf (opcField w) (wselField w) with
    | none => simp [hcmd] at h
    | some j => simpa [hcmd] using h
  · rintro ⟨hzero, hfields⟩
    have hcmd := commandOf_eq_some_iff.mpr hfields
    have hlegal : fieldsLegal (opcField w) (wselField w) = true := by
      rw [← commandOf_isSome, hcmd, Option.isSome_some]
    have hopc := (Bool.and_eq_true_iff.mp hlegal).1
    rw [decode_of_known hzero hopc, hcmd, Option.elim_some]

theorem decode_of_legal {w : Word} (hzero : zeroField w = 0)
    (hlegal : fieldsLegal (opcField w) (wselField w) = true) :
    ∃ i, decode w = .ok i ∧ i.opc = opcField w ∧ i.wsel = wselField w := by
  rw [← commandOf_isSome] at hlegal
  obtain ⟨i, hcmd⟩ := Option.isSome_iff_exists.mp hlegal
  have hfields := commandOf_fields hcmd
  exact ⟨i, decode_eq_ok_iff.mpr ⟨hzero, hfields⟩, hfields⟩

/-- The decoder accepts the words of the encoder and no others. -/
theorem decode_eq_ok_iff_eq_encode (w : Word) (i : Instr) : decode w = .ok i ↔ w = encode i := by
  rw [decode_eq_ok_iff]
  constructor
  · rintro ⟨hzero, hopc, hwsel⟩
    rw [word_of_fields w, hzero, ← hopc, ← hwsel]
    rfl
  · rintro rfl
    obtain ⟨-, hopc, hwsel, hzero⟩ := fields_statement i
    exact ⟨hzero, hopc.symm, hwsel.symm⟩

/-! ### The statements -/

/-- Settles O1: the fifteen words by evaluation, and legality from the inverse laws of the
decoder. -/
theorem legalWordsAreTheFifteen : Obligations.LegalWordsAreTheFifteen :=
  ⟨by decide, decode_eq_ok_iff_eq_encode⟩

/-- Settles O2: each clause's bounds on the fields are what one test of the decoder asks. -/
theorem decodeFollowsTheTestOrder : Obligations.DecodeFollowsTheTestOrder := by
  intro w zero opc wsel
  have known : opcodeKnown (opcField w) = true ↔ 1 ≤ opc ∧ opc ≤ 8 := opcodeKnown_iff
  have allowed : windowAllowed (opcField w) (wselField w) = true ↔
      (opc ≤ 4 ∧ wsel = 0) ∨ (5 ≤ opc ∧ opc ≤ 7 ∧ wsel ≤ 2) ∨ (8 ≤ opc ∧ wsel ≤ 1) :=
    windowAllowed_iff
  have badWsel (hzero : zero = 0) (hopc : 1 ≤ opc ∧ opc ≤ 8)
      (hwsel : ¬((opc ≤ 4 ∧ wsel = 0) ∨ (5 ≤ opc ∧ opc ≤ 7 ∧ wsel ≤ 2) ∨ (8 ≤ opc ∧ wsel ≤ 1))) :
      decode w = .error .badWsel :=
    decode_badWsel hzero (known.mpr hopc) (eq_false_of_ne_true (mt allowed.mp hwsel))
  refine ⟨decode_reservedBits, fun hzero hopc => ?_, fun hzero _ _ _ => ?_, fun hzero _ _ _ => ?_,
    fun hzero _ _ => ?_, fun hzero hfields => ?_⟩
  · exact decode_badOpcode hzero (eq_false_of_ne_true (mt known.mp (by omega)))
  · exact badWsel hzero (by omega) (by omega)
  · exact badWsel hzero (by omega) (by omega)
  · exact badWsel hzero (by omega) (by omega)
  · have hlegal : fieldsLegal (opcField w) (wselField w) = true :=
      Bool.and_eq_true_iff.mpr ⟨known.mpr (by omega), allowed.mpr (by omega)⟩
    obtain ⟨i, hdecode, hopc, hwsel⟩ := decode_of_legal hzero hlegal
    exact ⟨i, hdecode, congrArg BitVec.toNat hopc, congrArg BitVec.toNat hwsel⟩

/-- Settles O3: the legal words are those of the encoder, and each of the others fails one test. -/
theorem workedEncodingsDecode : Obligations.WorkedEncodingsDecode := by
  refine ⟨?_, ?_, ?_, ?_, ?_, ?_, ?_, ?_, ?_⟩
  · exact (decode_eq_ok_iff_eq_encode _ _).mpr rfl
  · exact (decode_eq_ok_iff_eq_encode _ _).mpr rfl
  · exact (decode_eq_ok_iff_eq_encode _ _).mpr rfl
  · exact (decode_eq_ok_iff_eq_encode _ _).mpr rfl
  · exact decode_badWsel rfl rfl rfl
  · exact decode_badWsel rfl rfl rfl
  · exact decode_reservedBits (by decide)
  · exact decode_badOpcode rfl rfl
  · exact decode_badOpcode rfl rfl

end Sys2Proof.Laws
end

section
/-! The host's transactions: what each of the five answers, and the register file as a list of the
sixteen words a host can read (40_command_execution.md R90 to R96). -/

namespace Sys2Proof.Machine

/-! ### The register file -/

/-- The words of registers 0 to 15 as the host reads them (R20, R26, R27). -/
def regFile (p : Params) (s : State) : List Word :=
  [s.cmd, s.status, s.len, s.src0, s.src1, s.dst0, s.dst1, s.wtab, s.fs, s.fc0, s.fc1, capWord p,
    0, 0, 0, 0]

@[simp] theorem regFile_length (p : Params) (s : State) : (regFile p s).length = 16 := rfl

theorem readReg_eq_getD (p : Params) (s : State) (r : Fin 16) :
    readReg p s r = (regFile p s).getD r.val 0 := by
  fin_cases r <;> rfl

theorem regFile_writeReg (p : Params) (s : State) {r : Fin 16} (v : Word)
    (hr : 2 ≤ r.val ∧ r.val ≤ 10) : regFile p (writeReg s r v) = (regFile p s).set r.val v := by
  unfold writeReg
  split
  case h_10 =>
    simp only [imp_false] at *
    omega
  all_goals simp only [*]; rfl

theorem readReg_writeReg_self (p : Params) (s : State) {r : Fin 16} (v : Word)
    (hr : 2 ≤ r.val ∧ r.val ≤ 10) : readReg p (writeReg s r v) r = v := by
  simp [readReg_eq_getD, regFile_writeReg p s v hr]

theorem readReg_writeReg_ne (p : Params) (s : State) {r q : Fin 16} (v : Word)
    (hr : 2 ≤ r.val ∧ r.val ≤ 10) (hq : q ≠ r) :
    readReg p (writeReg s r v) q = readReg p s q := by
  have hval : r.val ≠ q.val := fun h => hq (Fin.ext h.symm)
  rw [readReg_eq_getD, readReg_eq_getD, regFile_writeReg p s v hr, List.getD_eq_getElem?_getD,
    List.getElem?_set_ne hval, ← List.getD_eq_getElem?_getD]

/-- STATUS, CAP and the reserved numbers ignore a host write (R92). -/
theorem writeReg_ignored (s : State) {r : Fin 16} (v : Word) (hr : r.val = 1 ∨ 11 ≤ r.val) :
    writeReg s r v = s := by
  unfold writeReg
  split
  case h_10 => rfl
  all_goals omega

@[simp] theorem readReg_resetBlock (p : Params) (s : State) (r : Fin 16) :
    readReg p (resetBlock s) r = readReg p State.reset r := rfl

theorem word_resetBlock (s : State) (a : Nat) :
    word (resetBlock s) a = Config.BUF_INIT (s.mem.resets + 1) a := rfl

/-! ### The transactions -/

theorem performTxn_regRead (r : Fin 16) (s : State) :
    performTxn (.regRead r) s = .next (returnWord s (readReg Config.params s r)) := rfl

theorem performTxn_cmdWrite (w : Word) (s : State) :
    performTxn (.regWrite 0 w) s = commandStep s w := rfl

theorem performTxn_regWrite {r : Fin 16} (hr : r ≠ 0) (v : Word) (s : State) :
    performTxn (.regWrite r v) s = .next (writeReg s r v) := if_neg hr

theorem performTxn_bufRead {a : Nat} (ha : a < 2 ^ Config.params.aw) (s : State) :
    performTxn (.bufRead a) s = .next (returnWord s (word s a)) := if_pos ha

theorem performTxn_bufWrite {a : Nat} (ha : a < 2 ^ Config.params.aw) (v : Word) (s : State) :
    performTxn (.bufWrite a v) s = .next { s with mem := memWrite Config.params s.mem a v } :=
  if_pos ha

theorem performTxn_bufRead_beyond {a : Nat} (ha : 2 ^ Config.params.aw ≤ a) (s : State) :
    performTxn (.bufRead a) s = .fault .hostAddressOutsideBuffer := if_neg ha.not_gt

theorem performTxn_bufWrite_beyond {a : Nat} (ha : 2 ^ Config.params.aw ≤ a) (v : Word)
    (s : State) : performTxn (.bufWrite a v) s = .fault .hostAddressOutsideBuffer :=
  if_neg ha.not_gt

theorem performTxn_reset (s : State) : performTxn .reset s = .next (resetBlock s) := rfl

/-- A legal word is stored in CMD and its command runs (R93, R97). -/
theorem commandStep_of_decode {w : Word} {i : Instr} (hdec : decode w = .ok i) (s : State) :
    commandStep s w = exec i { s with cmd := w } := by
  simp [commandStep, issue, hdec]

/-- Every transaction a host can express is answered with a next state, from every state. -/
theorem performTxn_completes {txn : HostTxn} (hwf : txn.wf Config.params = true) (s : State) :
    ∃ t, performTxn txn s = .next t := by
  cases txn with
  | regRead r => exact ⟨_, performTxn_regRead r s⟩
  | regWrite r v =>
    by_cases hr : r = 0
    · obtain ⟨t, hstep, -⟩ := commandStep_stores_cmd s v
      exact ⟨t, by rw [hr, performTxn_cmdWrite, hstep]⟩
    · exact ⟨_, performTxn_regWrite hr v s⟩
  | bufRead a => exact ⟨_, performTxn_bufRead (of_decide_eq_true hwf) s⟩
  | bufWrite a v => exact ⟨_, performTxn_bufWrite (of_decide_eq_true hwf) v s⟩
  | reset => exact ⟨_, performTxn_reset s⟩

/-! ### The statements -/

/-- Settles O6: an idle step changes nothing, and the next transaction, which the host can express,
completes. -/
theorem everyExpressibleTransactionCompletes :
    Obligations.EveryExpressibleTransactionCompletes := by
  intro s hok
  cases hscript : s.script with
  | nil => exact ⟨s, step_idle hscript⟩
  | cons txn rest =>
    have hwf : txn.wf Config.params = true :=
      List.all_eq_true.mp hok txn (hscript ▸ List.mem_cons_self)
    unfold SafeStep
    rw [step_txn hscript]
    exact performTxn_completes hwf _

/-- Settles O10: a write to an operand register sets one place of the register file. -/
theorem regWriteStoresAllBits : Obligations.RegWriteStoresAllBits := by
  intro s r v rest hscript
  rw [step_txn hscript]
  have hzero : r = 0 ↔ r.val = 0 := Fin.ext_iff
  refine ⟨fun hr => ?_, fun hr => ?_, fun hr => ?_⟩
  · refine ⟨_, performTxn_regWrite (by omega) v _, readReg_writeReg_self _ _ v hr,
      fun q hq => ?_, ?_, ?_, ?_⟩
    · exact readReg_writeReg_ne _ _ v hr hq
    · exact writeReg_mem _ r v
    · exact writeReg_script _ r v
    · exact writeReg_returned _ r v
  · rw [performTxn_regWrite (by omega), writeReg_ignored _ v hr]
  · rw [hzero.mpr hr, performTxn_cmdWrite]

/-- Settles O14, by the two rules of a read after a write. -/
theorem bufWriteReplacesOneWord : Obligations.BufWriteReplacesOneWord := by
  intro s a v rest hmem ha hscript
  refine ⟨_, (step_txn hscript).trans (performTxn_bufWrite ha v _), ?_, fun b hb => ?_, rfl⟩
  · exact memRead_memWrite_self Config.params hmem a v
  · exact memRead_memWrite_ne Config.params s.mem a v hb

/-- Settles O4. -/
theorem commandWriteRunsTheDecodedCommand : Obligations.CommandWriteRunsTheDecodedCommand := by
  intro s w rest i hscript hdec
  rw [step_txn hscript, performTxn_cmdWrite, commandStep_of_decode hdec]

/-- Settles O7: both buffer transactions test the address first. -/
theorem addressBeyondThePortFaults : Obligations.AddressBeyondThePortFaults := by
  intro s a v rest ha
  constructor <;> intro hscript
  · rw [step_txn hscript, performTxn_bufRead_beyond ha]
  · rw [step_txn hscript, performTxn_bufWrite_beyond ha]

/-- Settles O8. -/
theorem nothingHappensBetweenTransactions : Obligations.NothingHappensBetweenTransactions :=
  fun _ => step_idle

/-- Settles O9: the word returned is the register's place in the register file. -/
theorem regReadReturnsTheRegister : Obligations.RegReadReturnsTheRegister := by
  intro s r rest hscript
  rw [step_txn hscript, performTxn_regRead, readReg_eq_getD]
  rfl

/-- Settles O13. -/
theorem bufReadReturnsTheWord : Obligations.BufReadReturnsTheWord := by
  intro s a rest ha hscript
  rw [step_txn hscript, performTxn_bufRead ha]
  rfl

/-- Settles O16: the registers are those of the reset state, and no buffer word is listed. -/
theorem resetTransactionClearsTheBlock : Obligations.ResetTransactionClearsTheBlock := by
  intro s rest hscript
  refine ⟨_, (step_txn hscript).trans (performTxn_reset _), readReg_resetBlock _ _, ?_, ?_, ?_⟩
  · exact ⟨_, word_resetBlock _⟩
  · exact resetBlock_script _
  · exact resetBlock_returned _

end Sys2Proof.Machine
end

section
/-! The command step as a whole: which check rejects a command, what a command reads, and what
follows for repeated and for unrelated commands (40_command_execution.md R97 to R103). -/

namespace Sys2Proof.Machine

/-! ### The first failing check -/

/-- A command with a failing check is rejected for its first one. -/
theorem exec_of_failure {i : Instr} {s : State} {c : Cause}
    (h : firstFailure Config.params (tableLengthCheck i s) (tableParamCheck i s)
      (tableOperands i s) = some c) : exec i s = .next (reject s c) := by
  rw [exec_eq, runPhases_reject h]

theorem exec_of_not_lengthOk {i : Instr} {s : State} (h : ¬ LengthOk i s) :
    exec i s = .next (reject s
      (if s.len.toNat < 2 ∧ (i = .dft ∨ i = .idft ∨ i = .cdft) then .lenLt2 else .lenZero)) :=
  exec_of_failure (by rw [lengthCheck_of_not h, firstFailure_length])

theorem exec_of_not_ratiosOk {i : Instr} {s : State} (hlen : LengthOk i s)
    (hratio : ¬ RatiosOk i s) : exec i s = .next (reject s .ratioRange) := by
  obtain ⟨h, -⟩ | ⟨h, -⟩ | ⟨-, hparam⟩ := paramCheck_cases i s
  · exact absurd h hratio
  · exact absurd h hratio
  · exact exec_of_failure (by rw [(lengthOk_iff i s).mpr hlen, hparam, firstFailure_param])

theorem exec_of_not_orderOk {i : Instr} {s : State} (hlen : LengthOk i s) (hratio : RatiosOk i s)
    (horder : ¬ OrderOk i s) : exec i s = .next (reject s .cutoffOrder) := by
  obtain ⟨-, h, -⟩ | ⟨-, -, hparam⟩ | ⟨h, -⟩ := paramCheck_cases i s
  · exact absurd h horder
  · exact exec_of_failure (by rw [(lengthOk_iff i s).mpr hlen, hparam, firstFailure_param])
  · exact absurd hratio h

theorem tableParamCheck_none {i : Instr} {s : State} (hratio : RatiosOk i s)
    (horder : OrderOk i s) : tableParamCheck i s = none := by
  obtain ⟨-, -, hparam⟩ | ⟨-, h, -⟩ | ⟨h, -⟩ := paramCheck_cases i s
  · exact hparam
  · exact absurd horder h
  · exact absurd hratio h

theorem boundsCheck_of_not_regionsFit {i : Instr} {s : State} (h : ¬ RegionsFit i s) :
    boundsCheck Config.params (tableOperands i s) = some .regionBounds :=
  (ite_eq_or_eq _ _ _).resolve_left (mt (bounds_iff i s).mp h)

theorem overlapCheck_of_not_regionsApart {i : Instr} {s : State} (hlen : LengthOk i s)
    (h : ¬ RegionsApart i s) : overlapCheck (tableOperands i s) = some .regionOverlap :=
  (ite_eq_or_eq _ _ _).resolve_right (mt (overlap_iff hlen).mp h)

/-- With the first two checks passed, the regions decide. -/
theorem firstFailure_regions (p : Params) (o : Operands) :
    firstFailure p none none o = (boundsCheck p o).or (overlapCheck o) := by
  cases h : boundsCheck p o <;> simp [firstFailure, h]

theorem exec_of_not_regionsFit {i : Instr} {s : State} (hlen : LengthOk i s)
    (hratio : RatiosOk i s) (horder : OrderOk i s) (hfit : ¬ RegionsFit i s) :
    exec i s = .next (reject s .regionBounds) :=
  exec_of_failure (by
    rw [(lengthOk_iff i s).mpr hlen, tableParamCheck_none hratio horder, firstFailure_regions,
      boundsCheck_of_not_regionsFit hfit, Option.some_or])

theorem exec_of_not_regionsApart {i : Instr} {s : State} (hlen : LengthOk i s)
    (hratio : RatiosOk i s) (horder : OrderOk i s) (hfit : RegionsFit i s)
    (hapart : ¬ RegionsApart i s) : exec i s = .next (reject s .regionOverlap) :=
  exec_of_failure (by
    rw [(lengthOk_iff i s).mpr hlen, tableParamCheck_none hratio horder, firstFailure_regions,
      (bounds_iff i s).mpr hfit, overlapCheck_of_not_regionsApart hlen hapart, Option.none_or])

/-- EVENM tells an even length, for a filter or WIN command only (R22). -/
theorem tableEvenM_iff (i : Instr) (s : State) :
    tableEvenM i s = true ↔
      s.len.toNat % 2 = 0 ∧ i ≠ .dft ∧ i ≠ .idft ∧ i ≠ .cdft ∧ i ≠ .r2p := by
  cases i <;> simp [tableEvenM, isEven_iff]

/-- The words of a failed length check (R101). -/
theorem rejectedStatus_length (P : Prop) [Decidable P] :
    rejectedStatus (if P then .lenLt2 else .lenZero) = if P then 0x25 else 0x15 := by
  split <;> decide

/-- Settles O20: each clause is one check failing with the earlier ones passed, or all of them
passed. -/
theorem statusTellsTheFirstFailure : Obligations.StatusTellsTheFirstFailure := by
  intro i s t hexec
  have answers {u : State} (h : exec i s = .next u) : t = u := by
    rw [hexec] at h
    injection h
  refine ⟨fun hlen => ?_, fun hlen hratio => ?_, fun hlen hratio horder => ?_,
    fun hlen hratio horder hfit => ?_, fun hlen hratio horder hfit hapart => ?_, fun hacc => ?_⟩
  · rw [answers (exec_of_not_lengthOk hlen), reject_status, rejectedStatus_length]
  · rw [answers (exec_of_not_ratiosOk hlen hratio)]
    rfl
  · rw [answers (exec_of_not_orderOk hlen hratio horder)]
    rfl
  · rw [answers (exec_of_not_regionsFit hlen hratio horder hfit)]
    rfl
  · rw [answers (exec_of_not_regionsApart hlen hratio horder hfit hapart)]
    rfl
  · rw [answers (exec_accepted hacc), commit_status, acceptedStatus_eq]
    simp only [tableEvenM_iff]

/-- Settles O21: the length check comes first, and its cause is the command's own. -/
theorem shortLengthsAreRejected : Obligations.ShortLengthsAreRejected := by
  constructor
  · intro i s htransform hshort
    have hlen : ¬ LengthOk i s := fun h => absurd (h.1 htransform) (by omega)
    rw [exec_of_not_lengthOk hlen, if_pos ⟨hshort, htransform⟩]
    rfl
  · intro i s hdft hidft hcdft hzero
    have htransform : ¬ IsTransform i := by simp [IsTransform, hdft, hidft, hcdft]
    have hlen : ¬ LengthOk i s := fun h => absurd (h.2 htransform) (by omega)
    rw [exec_of_not_lengthOk hlen, if_neg fun h => htransform h.2]
    rfl

/-! ### What a command reads -/

/-- Two states give a command the same row of its tables: the same checks, regions, flag and
function of the inputs. -/
structure SameRow (i : Instr) (s s' : State) : Prop where
  lengthCheck : tableLengthCheck i s' = tableLengthCheck i s
  paramCheck : tableParamCheck i s' = tableParamCheck i s
  operands : tableOperands i s' = tableOperands i s
  evenM : tableEvenM i s' = tableEvenM i s
  outputs : tableOutputs i s' = tableOutputs i s

/-- With the same row, a command differs only in the state it starts from. -/
theorem SameRow.exec_eq {i : Instr} {s s' : State} (h : SameRow i s s') :
    exec i s' = .next (runPhases Config.params s' (tableLengthCheck i s) (tableParamCheck i s)
      (tableOperands i s) (tableEvenM i s) (tableOutputs i s)) := by
  rw [Machine.exec_eq, h.lengthCheck, h.paramCheck, h.operands, h.evenM, h.outputs]

theorem SameRow.accepted_iff {i : Instr} {s s' : State} (h : SameRow i s s') :
    Accepted i s' ↔ Accepted i s := by
  rw [← firstFailure_none_iff_accepted, h.lengthCheck, h.paramCheck, h.operands,
    firstFailure_none_iff_accepted]

/-- No row reads anything but the operand registers (R28, R100). -/
theorem SameOperands.sameRow {s s' : State} (h : SameOperands s s') (i : Instr) :
    SameRow i s s' := by
  have hs' : s' = { s with
      cmd := s'.cmd, status := s'.status, mem := s'.mem, script := s'.script,
      returned := s'.returned } := by
    obtain ⟨h1, h2, h3, h4, h5, h6, h7, h8, h9⟩ := h
    simp only [← h1, ← h2, ← h3, ← h4, ← h5, ← h6, ← h7, ← h8, ← h9]
  rw [hs']
  cases i <;> exact ⟨rfl, rfl, rfl, rfl, rfl⟩

theorem OnlyResults.sameOperands {s t : State} (h : OnlyResults s t) : SameOperands s t := by
  rw [h]
  exact ⟨rfl, rfl, rfl, rfl, rfl, rfl, rfl, rfl, rfl⟩

/-! ### The same command again (R103) -/

theorem Accepted.outs_fit {i : Instr} {s : State} (h : Accepted i s) :
    ∀ r ∈ (tableOperands i s).outs, r.base + r.len ≤ Config.params.bufWords := by
  obtain ⟨-, -, -, hfit, -⟩ := h
  intro r hr
  exact (boundsCheck_none_iff _ _).mp ((bounds_iff i s).mpr hfit) r (List.mem_append_right _ hr)

/-- An accepted command does not overwrite its own inputs (R54). -/
theorem Accepted.readInputs_commit {i : Instr} {s : State} (h : Accepted i s) (e : Bool)
    (ins : List (List Word)) :
    readInputs Config.params (commit Config.params s (tableOperands i s) e (tableOutputs i s ins))
      (tableOperands i s) = readInputs Config.params s (tableOperands i s) := by
  obtain ⟨-, -, -, -, hapart, -⟩ := h
  refine List.map_congr_left fun q hq => ?_
  refine readSeq_storeAll_apart _ _ _ _ (tableOutputs_lengths i s ins) fun r hr => ?_
  exact hapart _ (mem_asRegions.mp hr) _ (mem_asRegions.mp hq)

theorem commit_commit {p : Params} {s : State} {o : Operands} {outs : List (List Word)}
    (hmem : Memory.wf p s.mem = true) (hlen : LengthsMatch o outs)
    (hfit : ∀ r ∈ o.outs, r.base + r.len ≤ p.bufWords) (e : Bool) :
    commit p (commit p s o e outs) o e outs = commit p s o e outs := by
  conv_lhs => rw [commit, commit_mem, storeAll_twice p hmem o.outs outs hlen hfit]
  rfl

/-- Settles O23: the second run has the row of the first; a rejection is repeated, and an accepted
command reads the same inputs again and stores the same outputs over themselves. -/
theorem commandsAreIdempotent : Obligations.CommandsAreIdempotent := by
  intro i s t hmem hexec
  obtain ⟨u, hu, hframe, -⟩ := commandsWriteOnlyStatusAndOutputs i s
  cases hexec.symm.trans hu
  rw [(hframe.sameOperands.sameRow i).exec_eq]
  by_cases hacc : Accepted i s
  · cases hexec.symm.trans (exec_accepted hacc)
    rw [runPhases_commit ((firstFailure_none_iff_accepted i s).mpr hacc), hacc.readInputs_commit,
      commit_commit hmem (tableOutputs_lengths i s _) hacc.outs_fit]
  · obtain ⟨c, hrej, hfail⟩ := exec_rejected hacc
    cases hexec.symm.trans hrej
    rw [runPhases_reject hfail]
    rfl

/-! ### Unrelated state (R103) -/

/-- After the same `Store`, a word that agreed before or lies in the region agrees. -/
theorem memRead_storeSeq_congr (p : Params) {m m' : Memory} (hm : Memory.wf p m = true)
    (hm' : Memory.wf p m' = true) {base : Nat} {vs : List Word}
    (hfit : base + vs.length ≤ p.bufWords) {a : Nat}
    (h : memRead p m a = memRead p m' a ∨ (base ≤ a ∧ a < base + vs.length)) :
    memRead p (storeSeq p m base vs) a = memRead p (storeSeq p m' base vs) a := by
  by_cases hin : base ≤ a ∧ a < base + vs.length
  · obtain ⟨j, rfl⟩ := Nat.exists_eq_add_of_le hin.1
    rw [memRead_storeSeq_inside p hm _ _ hfit (by omega),
      memRead_storeSeq_inside p hm' _ _ hfit (by omega)]
  · rw [memRead_storeSeq_outside p _ _ _ (by omega), memRead_storeSeq_outside p _ _ _ (by omega)]
    exact h.resolve_right hin

/-- After the same commit, a word that agreed before or lies in an output region agrees. -/
theorem memRead_storeAll_congr (p : Params) {m m' : Memory} (hm : Memory.wf p m = true)
    (hm' : Memory.wf p m' = true) {rs : List Region} {outs : List (List Word)}
    (hlen : List.Forall₂ (fun r o => r.len = List.length o) rs outs)
    (hfit : ∀ r ∈ rs, r.base + r.len ≤ p.bufWords) {a : Nat}
    (h : memRead p m a = memRead p m' a ∨ ∃ r ∈ rs, r.base ≤ a ∧ a < r.base + r.len) :
    memRead p (storeAll p m rs outs) a = memRead p (storeAll p m' rs outs) a := by
  induction hlen generalizing m m' with
  | nil => exact h.resolve_right (by simp)
  | @cons r o rest more hl _ ih =>
    rw [List.forall_mem_cons, hl] at hfit
    refine ih (wf_storeSeq p hm _ _ hfit.1) (wf_storeSeq p hm' _ _ hfit.1) hfit.2 ?_
    rw [List.exists_mem_cons_iff, hl, ← or_assoc] at h
    exact h.imp_left (memRead_storeSeq_congr p hm hm' hfit.1)

theorem readInputs_congr {i : Instr} {s s' : State}
    (h : ∀ r ∈ inputRegions i s, ∀ j, j < r.2 → word s (r.1 + j) = word s' (r.1 + j)) :
    readInputs Config.params s' (tableOperands i s) =
      readInputs Config.params s (tableOperands i s) := by
  refine List.map_congr_left fun r hr => List.map_congr_left fun j hj => ?_
  exact (h _ (mem_asRegions.mp hr) j (List.mem_range.mp hj)).symm

/-- Settles O24: the two states have one row; a rejection is for the same cause, and an accepted
command reads the same inputs and so commits the same outputs. -/
theorem resultsDependOnlyOnOperands : Obligations.ResultsDependOnlyOnOperands := by
  intro i s s' t t' hlen hsrc0 hsrc1 hdst0 hdst1 hwtab hfs hfc0 hfc1 hmem hmem' hins hexec hexec'
  have hops : SameOperands s s' :=
    ⟨hlen.symm, hsrc0.symm, hsrc1.symm, hdst0.symm, hdst1.symm, hwtab.symm, hfs.symm, hfc0.symm,
      hfc1.symm⟩
  rw [(hops.sameRow i).exec_eq] at hexec'
  by_cases hacc : Accepted i s
  · rw [runPhases_commit ((firstFailure_none_iff_accepted i s).mpr hacc),
      readInputs_congr hins] at hexec'
    cases hexec.symm.trans (exec_accepted hacc)
    cases hexec'
    refine ⟨rfl, fun _ r hr j hj => ?_⟩
    exact memRead_storeAll_congr Config.params hmem hmem' (tableOutputs_lengths i s _)
      hacc.outs_fit (.inr ⟨⟨r.1, r.2⟩, mem_asRegions.mpr hr, Nat.le_add_right _ _,
        Nat.add_lt_add_left hj _⟩)
  · obtain ⟨c, hrej, hfail⟩ := exec_rejected hacc
    rw [runPhases_reject hfail] at hexec'
    cases hexec.symm.trans hrej
    cases hexec'
    exact ⟨rfl, fun h => absurd h hacc⟩

/-! ### Registers outside the row (R100) -/

/-- The update `u` of a state neither reads nor writes what a command writes.  Each field holds by
definition when `u` sets one operand register. -/
structure ApartFromResults (u : State → State) : Prop where
  mem : ∀ s, (u s).mem = s.mem := by intros; rfl
  status : ∀ s w, u { s with status := w } = { u s with status := w } := by intros; rfl
  results : ∀ s m w, u { s with mem := m, status := w } = { u s with mem := m, status := w } := by
    intros; rfl

section
variable {u : State → State} (hu : ApartFromResults u)
include hu

theorem ApartFromResults.reject (s : State) (c : Cause) :
    Machine.reject (u s) c = u (Machine.reject s c) := (hu.status s _).symm

theorem ApartFromResults.commit (p : Params) (s : State) (o : Operands) (e : Bool)
    (outs : List (List Word)) :
    Machine.commit p (u s) o e outs = u (Machine.commit p s o e outs) := by
  rw [Machine.commit, hu.mem]
  exact (hu.results s _ _).symm

theorem ApartFromResults.readInputs (p : Params) (s : State) (o : Operands) :
    Machine.readInputs p (u s) o = Machine.readInputs p s o := by
  simp only [Machine.readInputs, hu.mem]

/-- A command commutes with an update that leaves its row alone. -/
theorem ApartFromResults.exec {i : Instr} {s t : State} (hrow : SameRow i s (u s))
    (hexec : Machine.exec i s = .next t) : Machine.exec i (u s) = .next (u t) := by
  rw [hrow.exec_eq]
  by_cases hacc : Accepted i s
  · cases hexec.symm.trans (exec_accepted hacc)
    rw [runPhases_commit ((firstFailure_none_iff_accepted i s).mpr hacc), hu.commit, hu.readInputs]
  · obtain ⟨c, hrej, hfail⟩ := exec_rejected hacc
    cases hexec.symm.trans hrej
    rw [runPhases_reject hfail, hu.reject]

end

theorem sameRow_wtab {i : Instr} (hlpf : i ≠ .lpfCustom) (hhpf : i ≠ .hpfCustom)
    (hbpf : i ≠ .bpfCustom) (s : State) (v : Word) : SameRow i s { s with wtab := v } := by
  cases i
  case lpfCustom => exact absurd rfl hlpf
  case hpfCustom => exact absurd rfl hhpf
  case bpfCustom => exact absurd rfl hbpf
  all_goals exact ⟨rfl, rfl, rfl, rfl, rfl⟩

theorem sameRow_fc1 {i : Instr} (hband : ¬ IsBandPass i) (s : State) (v : Word) :
    SameRow i s { s with fc1 := v } := by
  cases i <;> simp [IsBandPass] at hband <;> exact ⟨rfl, rfl, rfl, rfl, rfl⟩

theorem sameRow_cutoff {i : Instr} (hband : ¬ IsBandPass i) (hsingle : ¬ IsSingleCutoff i)
    (s : State) (v : Word) :
    SameRow i s { s with fs := v } ∧ SameRow i s { s with fc0 := v } := by
  cases i <;> simp [IsBandPass, IsSingleCutoff] at hband hsingle <;>
    exact ⟨⟨rfl, rfl, rfl, rfl, rfl⟩, ⟨rfl, rfl, rfl, rfl, rfl⟩⟩

theorem sameRow_of_neither_transform_nor_r2p {i : Instr} (htransform : ¬ IsTransform i)
    (hr2p : i ≠ .r2p) (s : State) (v : Word) :
    SameRow i s { s with src0 := v } ∧ SameRow i s { s with src1 := v } ∧
      SameRow i s { s with dst1 := v } := by
  cases i <;> simp [IsTransform] at htransform hr2p <;>
    exact ⟨⟨rfl, rfl, rfl, rfl, rfl⟩, ⟨rfl, rfl, rfl, rfl, rfl⟩, ⟨rfl, rfl, rfl, rfl, rfl⟩⟩

theorem sameRow_dft_src1 (s : State) (v : Word) : SameRow .dft s { s with src1 := v } :=
  ⟨rfl, rfl, rfl, rfl, rfl⟩

theorem sameRow_idft_dst1 (s : State) (v : Word) : SameRow .idft s { s with dst1 := v } :=
  ⟨rfl, rfl, rfl, rfl, rfl⟩

/-- Settles O26: each update leaves the command's row alone, and no command writes the register. -/
theorem registersOutsideTheRowAreNotRead : Obligations.RegistersOutsideTheRowAreNotRead := by
  intro s t v
  have hwtab : ApartFromResults fun s => { s with wtab := v } := {}
  have hfc1 : ApartFromResults fun s => { s with fc1 := v } := {}
  have hfs : ApartFromResults fun s => { s with fs := v } := {}
  have hfc0 : ApartFromResults fun s => { s with fc0 := v } := {}
  have hsrc0 : ApartFromResults fun s => { s with src0 := v } := {}
  have hsrc1 : ApartFromResults fun s => { s with src1 := v } := {}
  have hdst1 : ApartFromResults fun s => { s with dst1 := v } := {}
  refine ⟨fun i hlpf hhpf hbpf => ?_, fun i hband => ?_, fun i hband hsingle hexec => ?_,
    fun i htransform hr2p hexec => ?_, ?_, ?_⟩
  · exact hwtab.exec (sameRow_wtab hlpf hhpf hbpf s v)
  · exact hfc1.exec (sameRow_fc1 hband s v)
  · obtain ⟨rfs, rfc0⟩ := sameRow_cutoff hband hsingle s v
    exact ⟨hfs.exec rfs hexec, hfc0.exec rfc0 hexec⟩
  · obtain ⟨rsrc0, rsrc1, rdst1⟩ := sameRow_of_neither_transform_nor_r2p htransform hr2p s v
    exact ⟨hsrc0.exec rsrc0 hexec, hsrc1.exec rsrc1 hexec, hdst1.exec rdst1 hexec⟩
  · exact hsrc1.exec (sameRow_dft_src1 s v)
  · exact hdst1.exec (sameRow_idft_dst1 s v)

end Sys2Proof.Machine
end

section
/-! The arithmetic: rounding to nearest, the square root, the special cases, comparisons and the
conversion of integers (41_numerics.md R111 to R119). -/

namespace Sys2Proof.Machine

theorem not_nan_of_zero {a : Word} (h : isZero a = true) : isNaN a = false :=
  not_nan_of_finite (finite_of_zero h)

theorem not_zero_of_inf {a : Word} (h : isInf a = true) : isZero a = false := by
  rw [isInf_iff] at h
  rw [← Bool.not_eq_true, isZero_iff]
  omega

theorem magnitude_pos {a : Word} (h : isZero a = false) : 0 < magnitude a := by
  rw [Nat.pos_iff_ne_zero, Ne, magnitude_eq_zero, h]
  decide

/-- The number of units in 1. -/
theorem unit_pos : 0 < 2 ^ 1074 := by positivity

/-! ### Words on a grid

The finite words whose last place is at least `u` are the multiples of `2^u` units; every other word
lies below `2^(u + 52)` units. -/

theorem magnitude_lt_two_pow (a : Word) : magnitude a < 2 ^ (52 + expOf a) := by
  have hf := fracOf_lt a
  unfold magnitude
  split
  · next h => simpa [h] using hf
  · calc (2 ^ 52 + fracOf a) * 2 ^ (expOf a - 1)
        < 2 ^ 53 * 2 ^ (expOf a - 1) :=
          Nat.mul_lt_mul_of_pos_right (by omega) (Nat.two_pow_pos _)
      _ = 2 ^ (52 + expOf a) := by
          rw [← Nat.pow_add]
          congr 1
          omega

/-- A word is a multiple of `2^u` units or lies below the words that have `u` as their last place. -/
theorem magnitude_on_grid (y : Word) (u : Nat) :
    (∃ k, magnitude y = k * 2 ^ u) ∨ (0 < u ∧ magnitude y < 2 ^ (u + 52)) := by
  by_cases hu : u ≤ expOf y - 1
  · obtain ⟨k, hk⟩ : 2 ^ u ∣ magnitude y := by
      unfold magnitude
      split
      · next h => simp [show u = 0 by omega]
      · exact Dvd.dvd.mul_left (Nat.pow_dvd_pow 2 hu) _
    exact .inl ⟨k, by rw [hk, Nat.mul_comm]⟩
  · refine .inr ⟨by omega, ?_⟩
    exact (magnitude_lt_two_pow y).trans_le (Nat.pow_le_pow_right (by decide) (by omega))

section
variable {u r : Nat} (hr : r ≤ 2 ^ 53) (hu : u = 0 ∨ 2 ^ 52 ≤ r) (s : Bool)
include hr hu

/-- The word of significand `r` at last place `u` has the magnitude `r * 2^u`, also when `r` has been
rounded up to `2^53` (R110). -/
theorem magnitude_pack_grid (hbits : u * 2 ^ 52 + r < 2 ^ 63) :
    magnitude (pack s (u * 2 ^ 52 + r)) = r * 2 ^ u := by
  rw [magnitude, expOf_pack s hbits, fracOf_pack s hbits]
  by_cases hsub : r < 2 ^ 52
  · obtain rfl : u = 0 := by omega
    rw [if_pos (by omega)]
    omega
  · rw [if_neg (by omega)]
    by_cases htop : r = 2 ^ 53
    · rw [htop, show (u * 2 ^ 52 + 2 ^ 53) / 2 ^ 52 - 1 = 1 + u by omega,
        show (u * 2 ^ 52 + 2 ^ 53) % 2 ^ 52 = 0 by omega, Nat.pow_add]
      ring
    · rw [show (u * 2 ^ 52 + r) / 2 ^ 52 - 1 = u by omega]
      congr 1
      omega

end

theorem fracOf_pack_grid_parity {u r : Nat} (s : Bool) (hbits : u * 2 ^ 52 + r < 2 ^ 63) :
    fracOf (pack s (u * 2 ^ 52 + r)) % 2 = r % 2 := by
  rw [fracOf_pack s hbits]
  omega

theorem signOf_pack_of_le (s : Bool) {n : Nat} (h : n ≤ infBits) : signOf (pack s n) = s :=
  signOf_pack s (h.trans_lt infBits_lt)

theorem isInf_pack_of_le (s : Bool) {n : Nat} (h : n ≤ infBits) :
    isInf (pack s n) = true ↔ n = infBits := by
  have hn := h.trans_lt infBits_lt
  rw [isInf_iff, expOf_pack s hn, fracOf_pack s hn]
  unfold infBits at *
  omega

theorem isFinite_pack_of_le (s : Bool) {n : Nat} (h : n ≤ infBits) :
    isFinite (pack s n) = true ↔ n < infBits := by
  have hn := h.trans_lt infBits_lt
  rw [isFinite_iff, expOf_pack s hn]
  unfold infBits at *
  omega

/-! ### The significand of a rounded quotient -/

/-- An integer above the quotient stays above its rounding. -/
theorem roundHalfEven_le {n d k : Nat} (hd : 0 < d) (h : n ≤ k * d) : roundHalfEven n d ≤ k := by
  obtain ⟨-, hup, -⟩ := roundHalfEven_spec n hd
  have : 2 * roundHalfEven n d * d ≤ (2 * k + 1) * d := by linarith
  have := Nat.le_of_mul_le_mul_right this hd
  omega

/-- An integer below the quotient stays below its rounding. -/
theorem le_roundHalfEven {n d k : Nat} (hd : 0 < d) (h : k * d ≤ n) : k ≤ roundHalfEven n d := by
  obtain ⟨hdown, -, -⟩ := roundHalfEven_spec n hd
  have : 2 * k * d ≤ (2 * roundHalfEven n d + 1) * d := by linarith
  have := Nat.le_of_mul_le_mul_right this hd
  omega

/-- No integer is nearer to the quotient than its rounding, and only an even rounding has another
integer equally near (R111). -/
theorem roundHalfEven_nearest (n k : Nat) {d : Nat} (hd : 0 < d) :
    ((roundHalfEven n d * d : Nat) - n : Int).natAbs ≤ ((k * d : Nat) - n : Int).natAbs ∧
    (((roundHalfEven n d * d : Nat) - n : Int).natAbs = ((k * d : Nat) - n : Int).natAbs →
      k ≠ roundHalfEven n d → roundHalfEven n d % 2 = 0) := by
  obtain ⟨hdown, hup, htie⟩ := roundHalfEven_spec n hd
  generalize roundHalfEven n d = r at *
  have hr : (2 * r + 1) * d = 2 * (r * d) + d := by ring
  rw [hr] at hdown htie
  obtain hlt | rfl | hgt := lt_trichotomy k r
  · have : k * d + d ≤ r * d := by
      rw [← Nat.succ_mul]
      exact Nat.mul_le_mul_right d hlt
    omega
  · exact ⟨le_rfl, fun _ h => absurd rfl h⟩
  · have : r * d + d ≤ k * d := by
      rw [← Nat.succ_mul]
      exact Nat.mul_le_mul_right d hgt
    omega

/-- The significand `n / d` units round to, in last places of the quotient. -/
def roundedSignificand (n d : Nat) : Nat := roundHalfEven n (d * 2 ^ lastPlace (n / d))

/-- The significand lies at most half a last place away, an even one when two are equally near. -/
theorem roundedSignificand_spec (n : Nat) {d : Nat} (hd : 0 < d) :
    2 * n ≤ (2 * roundedSignificand n d + 1) * (d * 2 ^ lastPlace (n / d)) ∧
    2 * (roundedSignificand n d * (d * 2 ^ lastPlace (n / d))) ≤
      2 * n + d * 2 ^ lastPlace (n / d) ∧
    (2 * n = (2 * roundedSignificand n d + 1) * (d * 2 ^ lastPlace (n / d)) ∨
        2 * (roundedSignificand n d * (d * 2 ^ lastPlace (n / d))) =
          2 * n + d * 2 ^ lastPlace (n / d) →
      roundedSignificand n d % 2 = 0) :=
  roundHalfEven_spec n (Nat.mul_pos hd (Nat.two_pow_pos _))

/-- No multiple of the last place is nearer to the quotient, and when another one is equally near the
significand is even. -/
theorem roundedSignificand_nearest_multiple (n k : Nat) {d : Nat} (hd : 0 < d) :
    ((roundedSignificand n d * (d * 2 ^ lastPlace (n / d)) : Nat) - n : Int).natAbs ≤
      ((k * (d * 2 ^ lastPlace (n / d)) : Nat) - n : Int).natAbs ∧
    (((roundedSignificand n d * (d * 2 ^ lastPlace (n / d)) : Nat) - n : Int).natAbs =
        ((k * (d * 2 ^ lastPlace (n / d)) : Nat) - n : Int).natAbs →
      k ≠ roundedSignificand n d → roundedSignificand n d % 2 = 0) :=
  roundHalfEven_nearest n k (Nat.mul_pos hd (Nat.two_pow_pos _))

theorem roundBits_eq (n d : Nat) :
    roundBits n d = min (lastPlace (n / d) * 2 ^ 52 + roundedSignificand n d) infBits := rfl

/-- 53 bits hold the quotient, counted in last places. -/
theorem lt_of_lastPlace (n : Nat) {d : Nat} (hd : 0 < d) :
    n < 2 ^ 53 * (d * 2 ^ lastPlace (n / d)) := by
  have hq : n / d < 2 ^ (lastPlace (n / d) + 53) := by
    refine Nat.lt_log2_self.trans_le (Nat.pow_le_pow_right (by decide) ?_)
    unfold lastPlace
    omega
  have := (Nat.div_lt_iff_lt_mul hd).mp hq
  rw [Nat.pow_add] at this
  linarith

/-- Above the subnormal numbers all 53 bits are used. -/
theorem le_of_lastPlace_pos {n d : Nat} (hd : 0 < d) (hu : 0 < lastPlace (n / d)) :
    2 ^ 52 * (d * 2 ^ lastPlace (n / d)) ≤ n := by
  unfold lastPlace at *
  have hq : n / d ≠ 0 := by
    intro h
    simp [h] at hu
  have hpow := (Nat.le_div_iff_mul_le hd).mp (Nat.log2_self_le hq)
  calc 2 ^ 52 * (d * 2 ^ ((n / d).log2 - 52))
      = 2 ^ (52 + ((n / d).log2 - 52)) * d := by rw [Nat.pow_add]; ring
    _ = 2 ^ (n / d).log2 * d := by rw [Nat.add_sub_of_le (by omega)]
    _ ≤ n := hpow

theorem roundedSignificand_le (n : Nat) {d : Nat} (hd : 0 < d) :
    roundedSignificand n d ≤ 2 ^ 53 :=
  roundHalfEven_le (Nat.mul_pos hd (Nat.two_pow_pos _)) (lt_of_lastPlace n hd).le

theorem le_roundedSignificand {n d : Nat} (hd : 0 < d) :
    lastPlace (n / d) = 0 ∨ 2 ^ 52 ≤ roundedSignificand n d :=
  (Nat.eq_zero_or_pos _).imp_right fun hu =>
    le_roundHalfEven (Nat.mul_pos hd (Nat.two_pow_pos _)) (le_of_lastPlace_pos hd hu)

/-! ### Rounding is to nearest, ties to even (R111) -/

section
variable (n : Nat) {d : Nat} (hd : 0 < d)
include hd

/-- The rounding overflows exactly from half way between the largest finite number and 2^1024 on:
never with a last place below 2045, always with one above, and with 2045 when the significand is
rounded up to `2^53`. -/
theorem infBits_le_iff_overflow :
    infBits ≤ lastPlace (n / d) * 2 ^ 52 + roundedSignificand n d ↔
      (2 ^ 54 - 1) * 2 ^ 2044 * d ≤ n := by
  have hle := roundedSignificand_le n hd
  have hge := le_roundedSignificand (n := n) hd
  have hlt := lt_of_lastPlace n hd
  have hpos := @le_of_lastPlace_pos n d hd
  obtain ⟨hdown, hup, htie⟩ := roundedSignificand_spec n hd
  generalize roundedSignificand n d = r at *
  generalize lastPlace (n / d) = u at *
  have hmono {v w : Nat} (h : v ≤ w) : d * 2 ^ v ≤ d * 2 ^ w :=
    Nat.mul_le_mul_left d (Nat.pow_le_pow_right (by decide) h)
  have hdouble {v w : Nat} (h : v + 1 = w) : d * 2 ^ w = 2 * (d * 2 ^ v) := by
    rw [← h, pow_succ]
    ring
  have h2045 : d * 2 ^ 2045 = 2 * (d * 2 ^ 2044) := hdouble (by decide)
  have h2046 : d * 2 ^ 2046 = 2 * (d * 2 ^ 2045) := hdouble (by decide)
  have hE : 0 < d * 2 ^ 2044 := by positivity
  rw [Nat.mul_assoc, Nat.mul_comm _ d]
  obtain hlow | rfl | hhigh := lt_trichotomy u 2045
  · have := hmono (show u ≤ 2044 by omega)
    unfold infBits
    constructor <;> intro h <;> omega
  · rw [h2045] at hdown hup htie
    generalize d * 2 ^ 2044 = E at *
    constructor
    · intro h
      unfold infBits at h
      obtain rfl : r = 2 ^ 53 := by omega
      omega
    · intro h
      have hcases : r = 2 ^ 53 ∨ r = 2 ^ 53 - 1 ∨ r ≤ 2 ^ 53 - 2 := by omega
      obtain rfl | rfl | hsmall := hcases
      · decide
      · exact absurd (htie (.inl (by omega))) (by decide)
      · have : (2 * r + 1) * (2 * E) ≤ (2 ^ 54 - 3) * (2 * E) :=
          Nat.mul_le_mul_right _ (by omega)
        omega
  · have := hmono (show 2046 ≤ u by omega)
    have := hpos (by omega)
    unfold infBits
    constructor <;> intro h <;> omega

/-- No word is nearer to the quotient than the rounding, and when another magnitude is equally near the
significand is even: a word below the grid of the last place is farther than `2^52` last places are. -/
theorem roundedSignificand_nearest (y : Word) :
    ((roundedSignificand n d * 2 ^ lastPlace (n / d) * d : Nat) - n : Int).natAbs ≤
      ((magnitude y * d : Nat) - n : Int).natAbs ∧
    (((roundedSignificand n d * 2 ^ lastPlace (n / d) * d : Nat) - n : Int).natAbs =
        ((magnitude y * d : Nat) - n : Int).natAbs →
      magnitude y ≠ roundedSignificand n d * 2 ^ lastPlace (n / d) →
      roundedSignificand n d % 2 = 0) := by
  have hassoc (k v : Nat) : k * 2 ^ v * d = k * (d * 2 ^ v) := by ring
  obtain ⟨k, hk⟩ | ⟨hu, hy⟩ := magnitude_on_grid y (lastPlace (n / d))
  · obtain ⟨hle, heven⟩ := roundedSignificand_nearest_multiple n k hd
    rw [hk, hassoc, hassoc]
    exact ⟨hle, fun heq hne => heven heq fun h => hne (by rw [h])⟩
  · have hbelow : magnitude y * d < 2 ^ 52 * (d * 2 ^ lastPlace (n / d)) := by
      rw [Nat.pow_add] at hy
      nlinarith [Nat.mul_lt_mul_of_pos_right hy hd]
    have hn := le_of_lastPlace_pos hd hu
    obtain ⟨h52, -⟩ := roundedSignificand_nearest_multiple n (2 ^ 52) hd
    rw [hassoc]
    omega

/-- The packed rounding of a quotient is the word nearest to it (R111). -/
theorem nearestEven_pack_roundBits (s : Bool) : NearestEven n d (pack s (roundBits n d)) := by
  refine ⟨isNaN_pack_round s n d, ?_, fun hfin y _ => ?_⟩
  · rw [isInf_pack_of_le s (roundBits_le n d), ← infBits_le_iff_overflow n hd, roundBits_eq,
      min_eq_right_iff]
  · rw [isFinite_pack_of_le s (roundBits_le n d), roundBits_eq, min_lt_iff] at hfin
    have hlt := hfin.resolve_right (lt_irrefl _)
    rw [roundBits_eq, Nat.min_eq_left hlt.le, fracOf_pack_grid_parity s (hlt.trans infBits_lt),
      magnitude_pack_grid (roundedSignificand_le n hd) (le_roundedSignificand hd) s
        (hlt.trans infBits_lt)]
    exact roundedSignificand_nearest n hd y

end

theorem signOf_pack_roundBits (s : Bool) (n d : Nat) : signOf (pack s (roundBits n d)) = s :=
  signOf_pack_of_le s (roundBits_le n d)

/-- Settles O48: each operation packs the rounding of its exact result with that result's sign. -/
theorem arithmeticRoundsToNearestEven : Obligations.ArithmeticRoundsToNearestEven := by
  intro p a b ha hb
  refine ⟨fun hsum => ?_, ?_, fun hb0 => ?_⟩
  · rw [fadd_finite p ha hb hsum]
    exact ⟨nearestEven_pack_roundBits _ Nat.one_pos _, signOf_pack_roundBits _ _ _⟩
  · rw [fmul_finite p ha hb]
    exact ⟨nearestEven_pack_roundBits _ unit_pos _, signOf_pack_roundBits _ _ _⟩
  · rw [fdiv_finite p ha hb hb0]
    exact ⟨nearestEven_pack_roundBits _ (magnitude_pos hb0) _, signOf_pack_roundBits _ _ _⟩

/-! ### The square root (R114) -/

/-- `q` is the root of `x` cut to 53 bits, and `u` its last place. -/
structure IsRootCut (x u q : Nat) : Prop where
  low : 2 ^ 52 ≤ q
  high : q < 2 ^ 53
  le : q * q * 4 ^ u ≤ x
  lt : x < (q + 1) * (q + 1) * 4 ^ u

/-- The model's bits of the root, found one by one, are its cut to 53 bits. -/
theorem isqrtFrom_isRootCut {x : Nat} (hx : 2 ^ 104 ≤ x) :
    IsRootCut x (x.log2 / 2 - 52) (isqrtFrom (x / 4 ^ (x.log2 / 2 - 52)) 53 0) := by
  have hx0 : x ≠ 0 := by omega
  have hlog : 104 ≤ x.log2 := (Nat.le_log2 hx0).mpr hx
  generalize hu : x.log2 / 2 - 52 = u
  have h4 (k : Nat) : 4 ^ k = 2 ^ (2 * k) := by rw [Nat.pow_mul]
  have hpos : 0 < 4 ^ u := Nat.pow_pos (by decide)
  have hlow : 2 ^ 52 * 2 ^ 52 ≤ x / 4 ^ u := by
    rw [Nat.le_div_iff_mul_le hpos, h4, ← Nat.pow_add, ← Nat.pow_add]
    exact (Nat.pow_le_pow_right (by decide) (by omega)).trans (Nat.log2_self_le hx0)
  have hhigh : x / 4 ^ u < 2 ^ 53 * 2 ^ 53 := by
    rw [Nat.div_lt_iff_lt_mul hpos, h4, ← Nat.pow_add, ← Nat.pow_add]
    exact Nat.lt_log2_self.trans_le (Nat.pow_le_pow_right (by decide) (by omega))
  obtain ⟨hle, hlt⟩ := isqrtFrom_spec (x / 4 ^ u) 53 0 (Nat.zero_le _) (by simpa using hhigh)
  generalize isqrtFrom (x / 4 ^ u) 53 0 = q at *
  exact
    { low := Nat.lt_succ_iff.mp (Nat.mul_self_lt_mul_self_iff.mp (hlow.trans_lt hlt))
      high := Nat.mul_self_lt_mul_self_iff.mp (hle.trans_lt hhigh)
      le := (Nat.le_div_iff_mul_le hpos).mp hle
      lt := (Nat.div_lt_iff_lt_mul hpos).mp hlt }

/-- No word lies strictly between two neighbours on the grid of a last place. -/
theorem magnitude_grid_gap (y : Word) (u : Nat) {q : Nat} (hq : 2 ^ 52 ≤ q) :
    magnitude y ≤ q * 2 ^ u ∨ (q + 1) * 2 ^ u ≤ magnitude y := by
  obtain ⟨k, hk⟩ | ⟨-, hy⟩ := magnitude_on_grid y u
  · rw [hk]
    exact (Nat.lt_or_ge q k).symm.imp (Nat.mul_le_mul_right _) (Nat.mul_le_mul_right _)
  · rw [Nat.pow_add, Nat.mul_comm] at hy
    exact .inl (hy.le.trans (Nat.mul_le_mul_right _ hq))

theorem sq_mul_two_pow (c u : Nat) : (c * 2 ^ u) ^ 2 = c ^ 2 * 4 ^ u := by
  rw [Nat.mul_pow, ← Nat.pow_mul, Nat.mul_comm u, Nat.pow_mul]

/-- `r` is the cut root `q` or the next significand, by the side of the middle between them on which
the root lies. -/
def RootRounding (x u q r : Nat) : Prop :=
  (r = q ∧ 4 * x ≤ ((2 * q + 1) * 2 ^ u) ^ 2) ∨ (r = q + 1 ∧ ((2 * q + 1) * 2 ^ u) ^ 2 ≤ 4 * x)

section
variable {x u q r : Nat} (hcut : IsRootCut x u q) (hround : RootRounding x u q r)
include hcut hround

theorem RootRounding.bounds : 2 ^ 52 ≤ r ∧ r ≤ 2 ^ 53 := by
  obtain ⟨hlow, hhigh, -, -⟩ := hcut
  obtain ⟨rfl, -⟩ | ⟨rfl, -⟩ := hround <;> omega

/-- The root is not above the middle between the rounding and a larger word. -/
theorem RootRounding.le_middle_of_lt {y : Word} (hy : r * 2 ^ u < magnitude y) :
    4 * x ≤ (r * 2 ^ u + magnitude y) ^ 2 := by
  have hup : (2 * r + 1) * 2 ^ u ≤ r * 2 ^ u + magnitude y := by
    have := (magnitude_grid_gap y u (hround.bounds hcut).1).resolve_left hy.not_ge
    linarith
  refine le_trans ?_ (Nat.pow_le_pow_left hup 2)
  obtain ⟨rfl, h⟩ | ⟨rfl, -⟩ := hround
  · exact h
  · have hlt := hcut.lt
    have hsq : (2 * (q + 1)) ^ 2 * 4 ^ u ≤ (2 * (q + 1) + 1) ^ 2 * 4 ^ u :=
      Nat.mul_le_mul_right _ (Nat.pow_le_pow_left (by omega) 2)
    rw [sq_mul_two_pow]
    linarith

/-- The root is not below the middle between the rounding and a smaller word. -/
theorem RootRounding.middle_le_of_gt {y : Word} (hy : magnitude y < r * 2 ^ u) :
    (r * 2 ^ u + magnitude y) ^ 2 ≤ 4 * x := by
  obtain ⟨rfl, -⟩ | ⟨rfl, h⟩ := hround
  · have hle := hcut.le
    have h4 : (2 * (r * 2 ^ u)) ^ 2 = 4 * (r * r * 4 ^ u) := by
      rw [← Nat.mul_assoc, sq_mul_two_pow]
      ring
    calc (r * 2 ^ u + magnitude y) ^ 2 ≤ (2 * (r * 2 ^ u)) ^ 2 :=
          Nat.pow_le_pow_left (by omega) 2
      _ ≤ 4 * x := by omega
  · refine le_trans (Nat.pow_le_pow_left ?_ 2) h
    have := (magnitude_grid_gap y u hcut.low).resolve_right hy.not_ge
    linarith

end

/-- The bits of the root are a last place and a rounding of the cut root. -/
theorem sqrtBits_spec {m : Nat} (hm : 0 < m) :
    ∃ u q r, sqrtBits m = u * 2 ^ 52 + r ∧ IsRootCut (m * 2 ^ 1074) u q ∧
      RootRounding (m * 2 ^ 1074) u q r := by
  have hx : 2 ^ 104 ≤ m * 2 ^ 1074 := by
    calc 2 ^ 104 ≤ 2 ^ 1074 := pow_le_pow_right₀ (by decide) (by decide)
      _ ≤ m * 2 ^ 1074 := Nat.le_mul_of_pos_left _ hm
  refine ⟨_, _, _, rfl, isqrtFrom_isRootCut hx, ?_⟩
  unfold RootRounding
  generalize m * 2 ^ 1074 = x
  generalize x.log2 / 2 - 52 = u
  generalize isqrtFrom (x / 4 ^ u) 53 0 = q
  rw [sq_mul_two_pow, Nat.pow_two]
  split
  · next h => exact .inr ⟨rfl, h.elim (fun h => h.le) fun h => h.1.le⟩
  · next h =>
    rw [not_or, Nat.not_lt] at h
    exact .inl ⟨rfl, h.1⟩

/-- The last place of the root is half as high as the number. -/
theorem IsRootCut.lastPlace_lt {x u q e : Nat} (hcut : IsRootCut x u q) (hx : x < 2 ^ e) :
    104 + 2 * u < e := by
  refine (Nat.pow_lt_pow_iff_right (a := 2) (by decide)).mp ?_
  calc 2 ^ (104 + 2 * u) = 2 ^ 52 * 2 ^ 52 * 4 ^ u := by
        rw [Nat.pow_add, Nat.pow_mul]
        rfl
    _ ≤ q * q * 4 ^ u := Nat.mul_le_mul_right _ (Nat.mul_le_mul hcut.low hcut.low)
    _ ≤ x := hcut.le
    _ < 2 ^ e := hx

theorem mul_two_pow_lt {m e : Nat} (h : m < 2 ^ e) (k : Nat) : m * 2 ^ k < 2 ^ (e + k) := by
  rw [Nat.pow_add]
  exact Nat.mul_lt_mul_of_pos_right h (Nat.two_pow_pos k)

/-- The root of a finite magnitude is packed to a finite word, the rounding of the cut root. -/
theorem pack_sqrtBits_spec {m : Nat} (hm : 0 < m) (hfin : m < 2 ^ 2098) :
    isFinite (pack false (sqrtBits m)) = true ∧ signOf (pack false (sqrtBits m)) = false ∧
    ∃ u q r, magnitude (pack false (sqrtBits m)) = r * 2 ^ u ∧ IsRootCut (m * 2 ^ 1074) u q ∧
      RootRounding (m * 2 ^ 1074) u q r := by
  obtain ⟨u, q, r, hbits, hcut, hround⟩ := sqrtBits_spec hm
  obtain ⟨hlow, hhigh⟩ := hround.bounds hcut
  have hu : 104 + 2 * u < 2098 + 1074 := hcut.lastPlace_lt (mul_two_pow_lt hfin 1074)
  have hlt : u * 2 ^ 52 + r < infBits := by
    unfold infBits
    omega
  rw [hbits]
  exact ⟨(isFinite_pack_of_le false hlt.le).mpr hlt, signOf_pack_of_le false hlt.le,
    u, q, r, magnitude_pack_grid hhigh (.inr hlow) false (hlt.trans infBits_lt), hcut, hround⟩

/-! #### The cases of `fsqrt` -/

theorem fsqrt_finite (p : Params) {a : Word} (ha : isFinite a = true) (h0 : isZero a = false)
    (hs : signOf a = false) : fsqrt p a = pack false (sqrtBits (magnitude a)) := by
  simp [fsqrt, not_nan_of_finite ha, not_inf_of_finite ha, h0, hs]

theorem fsqrt_zero (p : Params) {a : Word} (h : isZero a = true) : fsqrt p a = a := by
  simp [fsqrt, not_nan_of_zero h, h]

theorem fsqrt_inf (p : Params) {a : Word} (h : isInf a = true) (hs : signOf a = false) :
    fsqrt p a = a := by
  simp [fsqrt, not_nan_of_inf h, not_zero_of_inf h, h, hs]

theorem fsqrt_nan (p : Params) {a : Word} (h : isNaN a = true) : isNaN (fsqrt p a) = true := by
  simp [fsqrt, h]

theorem fsqrt_negative (p : Params) {a : Word} (h0 : isZero a = false) (hs : signOf a = true) :
    isNaN (fsqrt p a) = true := by
  by_cases hn : isNaN a = true
  · exact fsqrt_nan p hn
  · simp [fsqrt, hn, h0, hs]

/-- Settles O49: the root of a positive finite word is the rounding of its cut to 53 bits. -/
theorem squareRootIsCorrectlyRounded : Obligations.SquareRootIsCorrectlyRounded := by
  intro p a
  refine ⟨fun ha h0 hs => ?_, fsqrt_zero p, fsqrt_inf p, fsqrt_nan p, fsqrt_negative p⟩
  obtain ⟨hfin, hsign, u, q, r, hmag, hcut, hround⟩ :=
    pack_sqrtBits_spec (magnitude_pos h0) (magnitude_lt_of_finite ha)
  rw [fsqrt_finite p ha h0 hs, hmag]
  exact ⟨hfin, hsign, fun y _ =>
    ⟨hround.le_middle_of_lt hcut, hround.middle_le_of_gt hcut⟩⟩

/-! ### The special cases of the operations (R112) -/

section
variable (p : Params) {a b : Word}

theorem fsub_nan (h : isNaN a = true ∨ isNaN b = true) : isNaN (fsub p a b) = true :=
  fadd_nan p (by rwa [isNaN_fneg])

/-! #### Sums -/

theorem fadd_opposite_inf (ha : isInf a = true) (hb : isInf b = true) (hs : signOf a ≠ signOf b) :
    isNaN (fadd p a b) = true := by
  simp [fadd, not_nan_of_inf ha, not_nan_of_inf hb, ha, hb, hs]

theorem fadd_inf_finite (ha : isInf a = true) (hb : isFinite b = true) : fadd p a b = a := by
  simp [fadd, not_nan_of_inf ha, not_nan_of_finite hb, ha, not_inf_of_finite hb]

theorem fadd_finite_inf (ha : isFinite a = true) (hb : isInf b = true) : fadd p a b = b := by
  simp [fadd, not_nan_of_inf hb, not_nan_of_finite ha, hb, not_inf_of_finite ha]

theorem fadd_finite_comm (ha : isFinite a = true) (hb : isFinite b = true) :
    fadd p a b = fadd p b a := by
  simp only [fadd, not_nan_of_finite ha, not_nan_of_finite hb, not_inf_of_finite ha,
    not_inf_of_finite hb, Int.add_comm (scaled a), Bool.and_comm (signOf a), Bool.or_self,
    Bool.false_eq_true, if_false]

theorem fadd_zeros (ha : isZero a = true) (hb : isZero b = true) :
    fadd p a b = pack (signOf a && signOf b) 0 := by
  refine fadd_finite_zero p (finite_of_zero ha) (finite_of_zero hb) ?_
  rw [scaled_eq_zero.mpr ha, scaled_eq_zero.mpr hb, Int.add_zero]

/-- An exact zero sum of two words of opposite sign, zeros or not, is +0. -/
theorem fadd_cancel (ha : isFinite a = true) (hb : isFinite b = true)
    (hsum : scaled a + scaled b = 0) (hs : (signOf a && signOf b) = false) :
    fadd p a b = ZERO := by
  rw [fadd_finite_zero p ha hb hsum, hs]
  rfl

/-- Two values that are not zero and add to 0 are not both negative. -/
theorem signs_of_scaled_add_eq_zero (h0 : isZero a = false) (hsum : scaled a + scaled b = 0) :
    (signOf a && signOf b) = false := by
  have hb0 : isZero b = false := by
    rw [← Bool.not_eq_true, ← scaled_eq_zero] at h0 ⊢
    omega
  rw [← Bool.not_eq_true, Bool.and_eq_true, ← scaled_neg_iff h0, ← scaled_neg_iff hb0]
  omega

/-- Adding a zero to a word that is not a zero changes nothing. -/
theorem fadd_zero_right (hn : isNaN a = false) (h0 : isZero a = false) (hb : isZero b = true) :
    fadd p a b = a := by
  obtain ha | ha | ha := kind_cases a
  · simp [ha] at hn
  · exact fadd_inf_finite p ha (finite_of_zero hb)
  · have hsum : scaled a + scaled b = scaled a := by rw [scaled_eq_zero.mpr hb, Int.add_zero]
    have hne : scaled a ≠ 0 := by rw [Ne, scaled_eq_zero, h0]; decide
    have hsign : decide (scaled a < 0) = signOf a := by
      rw [Bool.eq_iff_iff, decide_eq_true_eq, scaled_neg_iff h0]
    rw [fadd_finite p ha (finite_of_zero hb) (by rwa [hsum]), hsum, hsign, scaled_natAbs,
      pack_round_self ha]

theorem fadd_zero_left (hn : isNaN a = false) (h0 : isZero a = false) (hb : isZero b = true) :
    fadd p b a = a := by
  obtain ha | ha | ha := kind_cases a
  · simp [ha] at hn
  · exact fadd_finite_inf p (finite_of_zero hb) ha
  · rw [fadd_finite_comm p (finite_of_zero hb) ha, fadd_zero_right p hn h0 hb]

/-! #### Products and quotients -/

theorem isZero_pack_zero (s : Bool) : isZero (pack s 0) = true := by
  cases s <;> decide

theorem fmul_zero_inf (ha : isZero a = true) (hb : isInf b = true) :
    isNaN (fmul p a b) = true ∧ isNaN (fmul p b a) = true := by
  constructor <;> simp [fmul, not_nan_of_zero ha, not_nan_of_inf hb, ha, hb]

theorem fmul_zero_left (ha : isZero a = true) (hb : isFinite b = true) :
    fmul p a b = pack (signOf a != signOf b) 0 := by
  rw [fmul_finite p (finite_of_zero ha) hb, magnitude_eq_zero.mpr ha, Nat.zero_mul, roundBits_zero]

theorem fmul_zero_right (ha : isFinite a = true) (hb : isZero b = true) :
    fmul p a b = pack (signOf a != signOf b) 0 := by
  rw [fmul_finite p ha (finite_of_zero hb), magnitude_eq_zero.mpr hb, Nat.mul_zero, roundBits_zero]

/-- A product that is not a NaN has the exclusive-or of the signs. -/
theorem signOf_fmul (h : isNaN (fmul p a b) = false) :
    signOf (fmul p a b) = (signOf a != signOf b) := by
  unfold fmul at h ⊢
  split at h
  · simp at h
  split at h
  · simp at h
  rw [if_neg ‹_›, if_neg ‹_›]
  split
  · exact signOf_pack_of_le _ le_rfl
  · exact signOf_pack_roundBits _ _ _

/-- A quotient that is not a NaN has the exclusive-or of the signs. -/
theorem signOf_fdiv (h : isNaN (fdiv p a b) = false) :
    signOf (fdiv p a b) = (signOf a != signOf b) := by
  unfold fdiv at h ⊢
  split at h
  · simp at h
  split at h
  · simp at h
  rw [if_neg ‹_›, if_neg ‹_›]
  split
  · exact signOf_pack_of_le _ le_rfl
  split
  · exact signOf_pack_of_le _ (Nat.zero_le _)
  · exact signOf_pack_roundBits _ _ _

theorem fdiv_zero_zero (ha : isZero a = true) (hb : isZero b = true) :
    isNaN (fdiv p a b) = true := by
  simp [fdiv, not_nan_of_zero ha, not_nan_of_zero hb, ha, hb]

theorem fdiv_inf_inf (ha : isInf a = true) (hb : isInf b = true) : isNaN (fdiv p a b) = true := by
  simp [fdiv, not_nan_of_inf ha, not_nan_of_inf hb, ha, hb]

theorem fdiv_finite_zero (ha : isFinite a = true) (h0 : isZero a = false) (hb : isZero b = true) :
    fdiv p a b = pack (signOf a != signOf b) infBits := by
  simp [fdiv, not_nan_of_finite ha, not_nan_of_zero hb, not_inf_of_finite ha, h0, hb]

theorem fdiv_finite_inf (ha : isFinite a = true) (hb : isInf b = true) :
    fdiv p a b = pack (signOf a != signOf b) 0 := by
  simp [fdiv, not_nan_of_finite ha, not_nan_of_inf hb, not_inf_of_finite ha, not_zero_of_inf hb, hb]

/-- A zero over a word that is neither a zero nor a NaN is a zero. -/
theorem fdiv_zero_left (ha : isZero a = true) (hn : isNaN b = false) (h0 : isZero b = false) :
    fdiv p a b = pack (signOf a != signOf b) 0 := by
  obtain hb | hb | hb := kind_cases b
  · simp [hb] at hn
  · exact fdiv_finite_inf p (finite_of_zero ha) hb
  · rw [fdiv_finite p (finite_of_zero ha) hb h0, magnitude_eq_zero.mpr ha, Nat.zero_mul,
      roundBits_zero]

end

/-- Settles O50: one lemma for each case of R112. -/
theorem specialCasesOfTheOperations : Obligations.SpecialCasesOfTheOperations := by
  intro p a b
  have hnegZero : isZero 0x8000000000000000 = true := by decide
  have hzero : isZero ZERO = true := by decide
  refine ⟨fun h => ⟨fadd_nan p h, fsub_nan p h, fmul_nan p h, fdiv_nan p h⟩, fsqrt_nan p,
    fadd_opposite_inf p, fun ha hb => ⟨fadd_inf_finite p ha hb, fadd_finite_inf p hb ha⟩, ?_, ?_,
    fadd_zeros p hnegZero hnegZero, fadd_zeros p hzero hzero,
    fun hn h0 hb => ⟨fadd_zero_right p hn h0 hb, fadd_zero_left p hn h0 hb⟩, rfl,
    fmul_zero_inf p, ?_, signOf_fmul p, signOf_fdiv p, fdiv_zero_zero p, fdiv_inf_inf p, ?_, ?_, ?_⟩
  · intro ha hb hs
    rw [fadd_zeros p ha hb, show (signOf a && signOf b) = false by grind]
    rfl
  · intro ha hb h0 hsum
    exact fadd_cancel p ha hb hsum (signs_of_scaled_add_eq_zero h0 hsum)
  · intro ha hb
    rw [fmul_zero_left p ha hb, fmul_zero_right p hb ha, bne_comm (a := signOf b)]
    have hpack (s : Bool) : isZero (pack s 0) = true ∧ signOf (pack s 0) = s :=
      ⟨isZero_pack_zero s, signOf_pack_of_le s (Nat.zero_le _)⟩
    exact ⟨hpack _, hpack _⟩
  · intro ha h0 hb
    rw [fdiv_finite_zero p ha h0 hb, isInf_pack_of_le _ le_rfl]
  · intro ha hb
    rw [fdiv_finite_inf p ha hb, isZero_pack_zero]
  · intro ha hn h0
    rw [fdiv_zero_left p ha hn h0, isZero_pack_zero]

/-! ### Comparisons (R115) -/

section
variable {a b : Word}

theorem compare_nan (h : isNaN a = true ∨ isNaN b = true) :
    flt a b = false ∧ fge a b = false ∧ feq a b = false := by
  obtain h | h := h <;> simp [flt, fge, feq, h]

/-- Words that are not NaNs compare by their values, an infinity's being `2^2098` units. -/
theorem compare_values (ha : isNaN a = false) (hb : isNaN b = false) :
    flt a b = decide (scaled a < scaled b) ∧ fge a b = decide (scaled b ≤ scaled a) ∧
      feq a b = decide (scaled a = scaled b) := by
  simp [flt, fge, feq, ha, hb]

/-- The value of an infinity lies beyond every finite value (log 20). -/
theorem scaled_finite_inf (ha : isFinite a = true) (hb : isInf b = true) :
    (signOf b = false → scaled a < scaled b) ∧ (signOf b = true → scaled b < scaled a) := by
  have hlt : magnitude a < magnitude b := by
    rw [magnitude_inf hb]
    exact magnitude_lt_of_finite ha
  have habs := scaled_natAbs a
  refine ⟨fun hs => ?_, fun hs => ?_⟩
  · have : scaled b = magnitude b := by simp [scaled, hs]
    omega
  · have : scaled b = -magnitude b := by simp [scaled, hs]
    omega

theorem scaled_inf_inf (ha : isInf a = true) (hb : isInf b = true) :
    (scaled a = scaled b ↔ signOf a = signOf b) ∧
    (scaled a < scaled b ↔ signOf a = true ∧ signOf b = false) := by
  have hmag : magnitude a = magnitude b := (magnitude_inf ha).trans (magnitude_inf hb).symm
  have hpos : 0 < magnitude b := magnitude_pos (not_zero_of_inf hb)
  unfold scaled
  rw [hmag]
  cases signOf a <;> cases signOf b <;> simp <;> omega

end

/-- Settles O51: a comparison is one of the values, an infinity's value lies beyond the finite ones,
and a zero's value is 0. -/
theorem comparisonsFollowTheValues : Obligations.ComparisonsFollowTheValues := by
  refine ⟨fun a b => compare_nan, fun a b ha hb => ?_, fun a b ha hb => ?_, fun a b ha hb => ?_,
    fun a b ha hb => ?_⟩
  · obtain ⟨hlt, hge, heq⟩ := compare_values (not_nan_of_finite ha) (not_nan_of_finite hb)
    simp only [hlt, hge, heq, decide_eq_true_eq, and_self]
  · obtain ⟨hlt, hge, heq⟩ := compare_values (not_nan_of_zero ha) (not_nan_of_zero hb)
    rw [hlt, hge, heq, scaled_eq_zero.mpr ha, scaled_eq_zero.mpr hb]
    decide
  · obtain ⟨hlt, hge, heq⟩ := compare_values (not_nan_of_finite ha) (not_nan_of_inf hb)
    obtain ⟨hlt', hge', heq'⟩ := compare_values (not_nan_of_inf hb) (not_nan_of_finite ha)
    obtain ⟨habove, hbelow⟩ := scaled_finite_inf ha hb
    rw [hlt, hge, heq, hlt', hge', heq']
    have hne : scaled a ≠ scaled b := by
      cases hs : signOf b
      · exact (habove hs).ne
      · exact (hbelow hs).ne'
    simp only [decide_eq_true_eq, decide_eq_false_iff_not]
    exact ⟨⟨hne, hne.symm⟩,
      fun hs => ⟨habove hs, (habove hs).le, (habove hs).not_gt, (habove hs).not_ge⟩,
      fun hs => ⟨hbelow hs, (hbelow hs).le, (hbelow hs).not_gt, (hbelow hs).not_ge⟩⟩
  · obtain ⟨hlt, hge, heq⟩ := compare_values (not_nan_of_inf ha) (not_nan_of_inf hb)
    obtain ⟨hvalEq, hvalLt⟩ := scaled_inf_inf ha hb
    rw [hlt, hge, heq, decide_eq_true_eq, decide_eq_true_eq, decide_eq_true_eq, ← not_lt, hvalEq,
      hvalLt]
    refine ⟨Iff.rfl, Iff.rfl, ?_⟩
    rw [not_and_or, Bool.not_eq_true, Bool.not_eq_false]

/-! ### Negation (R113) -/

/-- Settles O52: the mask of the exclusive-or is the sign bit alone. -/
theorem fnegInvertsOnlyTheSign : Obligations.FnegInvertsOnlyTheSign := by
  intro a j hj
  have hmask : ∀ j < 64, (0x8000000000000000#64).getLsbD j = decide (j = 63) := by decide
  rw [fneg, BitVec.getLsbD_xor, hmask j hj]
  split
  · next h => simp [h]
  · next h => simp [h]

/-! ### Integers and the default angle (R116, R119) -/

/-- A number that is a multiple of its last place is not changed by rounding. -/
theorem pack_roundBits_exact (s : Bool) {v : Nat} (hdvd : 2 ^ lastPlace v ∣ v)
    (hv : v < (2 ^ 54 - 1) * 2 ^ 2044) :
    isFinite (pack s (roundBits v 1)) = true ∧ magnitude (pack s (roundBits v 1)) = v := by
  have hsig : roundedSignificand v 1 * 2 ^ lastPlace (v / 1) = v := by
    obtain ⟨k, hk⟩ := hdvd
    have hpos := Nat.two_pow_pos (lastPlace v)
    rw [roundedSignificand, Nat.div_one, Nat.one_mul]
    generalize 2 ^ lastPlace v = unit at *
    rw [hk, Nat.mul_comm unit, roundHalfEven_exact k hpos]
  have hlt : lastPlace (v / 1) * 2 ^ 52 + roundedSignificand v 1 < infBits := by
    rw [← Nat.not_le, infBits_le_iff_overflow v Nat.one_pos, Nat.mul_one]
    exact hv.not_ge
  rw [isFinite_pack_of_le s (roundBits_le v 1), roundBits_eq, Nat.min_eq_left hlt.le,
    magnitude_pack_grid (roundedSignificand_le v Nat.one_pos) (le_roundedSignificand Nat.one_pos) s
      (hlt.trans infBits_lt)]
  exact ⟨hlt, hsig⟩

/-- 53 bits hold every number up to `2^53` at any scale. -/
theorem lastPlace_dvd_of_le {m : Nat} (hm : m ≤ 2 ^ 53) (e : Nat) :
    2 ^ lastPlace (m * 2 ^ e) ∣ m * 2 ^ e := by
  obtain hlt | rfl := hm.lt_or_eq
  · refine Dvd.dvd.mul_left (Nat.pow_dvd_pow 2 ?_) m
    by_cases h0 : m * 2 ^ e = 0
    · simp [h0, lastPlace]
    · have := (Nat.log2_lt h0).mpr (mul_two_pow_lt hlt e)
      unfold lastPlace
      omega
  · rw [← Nat.pow_add]
    refine Nat.pow_dvd_pow 2 ?_
    rw [lastPlace, Nat.log2_two_pow]
    exact Nat.sub_le ..

/-- A 53-bit number at a scale up to 2^2044 is far enough from the overflow. -/
theorem mul_lt_overflow {m a e f : Nat} (hm : m ≤ 2 ^ 53) (ha : a ≤ 2 ^ e) (hef : e ≤ f) :
    m * a < (2 ^ 54 - 1) * 2 ^ f :=
  calc m * a ≤ 2 ^ 53 * 2 ^ f :=
        Nat.mul_le_mul hm (ha.trans (Nat.pow_le_pow_right (by decide) hef))
    _ < (2 ^ 54 - 1) * 2 ^ f := Nat.mul_lt_mul_of_pos_right (by decide) (Nat.two_pow_pos f)

theorem i2f_exact {n : Int} (hn : n.natAbs ≤ 2 ^ 53) :
    isFinite (i2f n) = true ∧ magnitude (i2f n) = n.natAbs * 2 ^ 1074 :=
  pack_roundBits_exact _ (lastPlace_dvd_of_le hn 1074) (mul_lt_overflow hn le_rfl (by decide))

theorem signOf_i2f (n : Int) : signOf (i2f n) = decide (n < 0) := signOf_pack_roundBits _ _ _

theorem scaled_i2f {n : Int} (hn : n.natAbs ≤ 2 ^ 53) : scaled (i2f n) = n * 2 ^ 1074 := by
  rw [scaled, signOf_i2f, (i2f_exact hn).2, Int.natCast_mul, Nat.cast_pow, Nat.cast_ofNat]
  generalize (2 : Int) ^ 1074 = unit
  obtain h | h := lt_or_ge n 0
  · rw [decide_eq_true h, if_pos rfl, ← Int.neg_mul, Int.ofNat_natAbs_of_nonpos h.le, Int.neg_neg]
  · rw [decide_eq_false h.not_gt, if_neg Bool.false_ne_true, Int.natAbs_of_nonneg h]

theorem i2f_zero : i2f 0 = ZERO := by
  rw [i2f, Int.natAbs_zero, Nat.zero_mul, roundBits_zero]
  rfl

/-- Settles O53: up to 2^53 in magnitude the conversion rounds a multiple of its last place. -/
theorem integerConversionIsExact : Obligations.IntegerConversionIsExact :=
  ⟨fun _ hn => ⟨(i2f_exact hn).1, scaled_i2f hn⟩, i2f_zero⟩

/-- Below the overflow a rounded result is finite. -/
theorem NearestEven.isFinite {n d : Nat} {c : Word} (hc : NearestEven n d c)
    (h : n < (2 ^ 54 - 1) * 2 ^ 2044 * d) : Machine.isFinite c = true := by
  obtain ⟨hnan, hinf, -⟩ := hc
  generalize (2 ^ 54 - 1) * 2 ^ 2044 * d = overflow at *
  obtain hc | hc | hc := kind_cases c
  · simp [hc] at hnan
  · exact absurd h (hinf.mp hc).not_gt
  · exact hc

theorem isFinite_fmul (p : Params) {a b : Word} (ha : isFinite a = true) (hb : isFinite b = true)
    (h : magnitude a * magnitude b < (2 ^ 54 - 1) * 2 ^ 2044 * 2 ^ 1074) :
    isFinite (fmul p a b) = true := by
  have hnear := nearestEven_pack_roundBits (magnitude a * magnitude b) unit_pos
    (signOf a != signOf b)
  rw [fmul_finite p ha hb]
  exact hnear.isFinite h

section
variable (p : Params) {a : Word} (ha : isFinite a = true) (hs : signOf a = false)
include ha hs

theorem fmul_ZERO_right : fmul p a ZERO = ZERO := by
  rw [fmul_zero_right p ha (by decide), hs]
  rfl

theorem fmul_ZERO_left : fmul p ZERO a = ZERO := by
  rw [fmul_zero_left p (by decide) ha, hs]
  rfl

theorem fdiv_ZERO_left (h0 : isZero a = false) : fdiv p ZERO a = ZERO := by
  rw [fdiv_zero_left p (by decide) (not_nan_of_finite ha) h0, hs]
  rfl

end

/-- An index or a length as a word: finite, with the sign of +0, and a zero only for 0. -/
theorem i2f_natCast {n : Nat} (hn : n ≤ 2 ^ 53) :
    isFinite (i2f n) = true ∧ signOf (i2f n) = false ∧ (0 < n → isZero (i2f n) = false) := by
  obtain ⟨hfin, hmag⟩ := @i2f_exact n hn
  refine ⟨hfin, by simp [signOf_i2f], fun hpos => ?_⟩
  have hunit := unit_pos
  generalize 2 ^ 1074 = unit at *
  rw [← Bool.not_eq_true, ← magnitude_eq_zero, hmag]
  exact Nat.mul_ne_zero (by simpa using hpos.ne') hunit.ne'

/-- 2π times an index is far from overflow. -/
theorem isFinite_TWO_PI_mul (p : Params) {k : Nat} (hk : k ≤ 2 ^ 53) :
    isFinite (fmul p TWO_PI (i2f k)) = true := by
  obtain ⟨hfin, hmag⟩ := @i2f_exact k hk
  refine isFinite_fmul p (by decide) hfin ?_
  have hpi := magnitude_lt_two_pow TWO_PI
  rw [show expOf TWO_PI = 1025 by decide] at hpi
  have hbound : k * magnitude TWO_PI < (2 ^ 54 - 1) * 2 ^ 2044 :=
    mul_lt_overflow hk hpi.le (by decide)
  rw [hmag, Int.natAbs_natCast, ← Nat.mul_assoc, Nat.mul_comm (magnitude TWO_PI)]
  exact Nat.mul_lt_mul_of_pos_right hbound unit_pos

theorem fdiv_ZERO_length (p : Params) {n : Nat} (hpos : 0 < n) (hn : n ≤ 2 ^ 53) :
    fdiv p ZERO (i2f n) = ZERO := by
  obtain ⟨hfin, hsign, h0⟩ := i2f_natCast hn
  exact fdiv_ZERO_left p hfin hsign (h0 hpos)

theorem signOf_TWO_PI_mul (p : Params) {k : Nat} (hk : k ≤ 2 ^ 53) :
    signOf (fmul p TWO_PI (i2f k)) = false := by
  rw [signOf_fmul p (not_nan_of_finite (isFinite_TWO_PI_mul p hk)), (i2f_natCast hk).2.1]
  decide

theorem angleOf_standard {p : Params} (h : p.angle = .standard) (k i n : Nat) :
    angleOf p k i n = fdiv p (fmul p (fmul p TWO_PI (i2f k)) (i2f i)) (i2f n) := by
  rw [angleOf, h]

/-- Settles O54: a product with +0 of finite words that are not negative is +0, and so is +0 over a
positive length. -/
theorem defaultAngleIsZeroOnTheAxes : Obligations.DefaultAngleIsZeroOnTheAxes := by
  intro p k i n hangle hpos hn hk hi
  have hlen : n ≤ 2 ^ 53 := hn.trans (by decide)
  have hk : k ≤ 2 ^ 53 := hk.le.trans hlen
  have hi : i ≤ 2 ^ 53 := hi.le.trans hlen
  obtain ⟨hfin, hsign, -⟩ := i2f_natCast hi
  constructor
  · rw [angleOf_standard hangle, Int.natCast_zero, i2f_zero,
      fmul_ZERO_right p (by decide) (by decide), fmul_ZERO_left p hfin hsign,
      fdiv_ZERO_length p hpos hlen]
  · rw [angleOf_standard hangle, Int.natCast_zero, i2f_zero,
      fmul_ZERO_right p (isFinite_TWO_PI_mul p hk) (signOf_TWO_PI_mul p hk),
      fdiv_ZERO_length p hpos hlen]

end Sys2Proof.Machine
end

section
/-! Windows: the first weights, the table WIN writes, and a caller's table in the place of a built-in
window (42_window.md). -/

namespace Sys2Proof.Machine

/-! ### The first weight of a window (R141, R142) -/

theorem magnitude_ONE : magnitude ONE = 2 ^ 1074 := by decide +kernel

/-- 1 is a right unit of the product on finite words. -/
theorem fmul_ONE (p : Params) {a : Word} (ha : isFinite a = true) : fmul p a ONE = a := by
  have hround := roundBits_scale (magnitude a) 1 unit_pos
  rw [Nat.one_mul] at hround
  rw [fmul_finite p ha (by decide), magnitude_ONE, hround, show signOf ONE = false by decide,
    Bool.bne_false, pack_round_self ha]

/-- At index 0 the angle of a window term is +0, whatever its positive factor. -/
theorem windowAngle_first (p : Params) {c : Word} (hc : isFinite c = true) (hs : signOf c = false)
    {m : Nat} (hpos : 0 < m) (hm : m ≤ 2 ^ 53) :
    fdiv p (fmul p c (i2f (0 : Nat))) (i2f m) = ZERO := by
  rw [Int.natCast_zero, i2f_zero, fmul_ZERO_right p hc hs, fdiv_ZERO_length p hpos hm]

theorem fsub_C054_C046 (p : Params) : fsub p C054 C046 = 0x3FB47AE147AE147C := by
  rw [fsub, fadd_finite p (by decide) (by decide) (by decide +kernel)]
  decide +kernel

theorem fadd_fsub_C042_HALF_C008 (p : Params) :
    fadd p (fsub p C042 HALF) C008 = 0xBC70000000000000 := by
  have hsub : fsub p C042 HALF = 0xBFB47AE147AE147C := by
    rw [fsub, fadd_finite p (by decide) (by decide) (by decide +kernel)]
    decide +kernel
  rw [hsub, fadd_finite p (by decide) (by decide) (by decide +kernel)]
  decide +kernel

/-- Settles O43: both angles at index 0 are +0, where P-ZERO gives the cosine 1. -/
theorem firstWindowWeights : Obligations.FirstWindowWeights := by
  rintro p m ⟨-, -, hcos, -⟩ hpos hm
  have hm : m ≤ 2 ^ 53 := hm.trans (by decide)
  have hcosTwo : p.fcos (fdiv p (fmul p TWO_PI (i2f (0 : Nat))) (i2f m)) = ONE := by
    rw [windowAngle_first p (by decide) (by decide) hpos hm]
    exact hcos
  have hcosFour : p.fcos (fdiv p (fmul p FOUR_PI (i2f (0 : Nat))) (i2f m)) = ONE := by
    rw [windowAngle_first p (by decide) (by decide) hpos hm]
    exact hcos
  constructor
  · rw [hammingWeight, hcosTwo, fmul_ONE p (by decide), fsub_C054_C046]
  · rw [blackmanWeight, hcosTwo, hcosFour, fmul_ONE p (by decide), fmul_ONE p (by decide),
      fadd_fsub_C042_HALF_C008]

/-! ### An accepted command with one output -/

/-- What an accepted command with one output region leaves: the output's words in the region, the
command's STATUS word, and nothing else. -/
theorem exec_one_output {i : Instr} {s : State} (hmem : Memory.wf Config.params s.mem = true)
    (hacc : Accepted i s) {r : Nat × Nat} (hregion : outputRegions i s = [r]) {out : List Word}
    (hout : tableOutputs i s (readInputs Config.params s (tableOperands i s)) = [out]) :
    ∃ t, exec i s = .next t ∧ OnlyResults s t ∧ OnlyOutputsWritten i s t ∧
      t.status = acceptedStatus (tableEvenM i s) ∧
      ∀ j, j < r.2 → word t (r.1 + j) = out.getD j 0 := by
  refine ⟨_, exec_accepted hacc, onlyResults_commit _ _ _ _ _, onlyOutputsWritten_commit i s _ _,
    rfl, fun j hj => ?_⟩
  have houts : (tableOperands i s).outs = [⟨r.1, r.2⟩] := by
    rw [tableOperands, hregion, asRegions_cons, asRegions_nil]
  have hlen := tableOutputs_lengths i s (readInputs Config.params s (tableOperands i s))
  have hfit := hacc.outs_fit
  rw [LengthsMatch, hout, houts, List.forall₂_cons] at hlen
  rw [houts] at hfit
  rw [word, commit_mem, hout, houts]
  exact memRead_storeAll_one Config.params hmem _ out hlen.1 (hfit _ List.mem_cons_self) hj

/-- STATUS of an accepted filter or WIN command as the spec's table writes it (R22). -/
theorem acceptedStatus_isEven (s : State) :
    acceptedStatus (isEven s.len.toNat) = filterStatus s := by
  simp only [acceptedStatus_eq, isEven_iff, filterStatus]

/-! ### WIN (R144) -/

/-- The window function of the commands is that of the statements, for a built-in window. -/
theorem windowWeight_eq_weight {w : WSel} (hw : w ≠ .custom) (s : State) (i m : Nat)
    (tab : List Word) : windowWeight Config.params w i m tab = weight w s i m := by
  cases w with
  | hamming => rfl
  | blackman => rfl
  | custom => exact absurd rfl hw

theorem winTable_getD (p : Params) (w : WSel) {m j : Nat} (hj : j < m) (d : Word) :
    (winTable p w m).getD j d = windowWeight p w j m [] := by
  simp [winTable, List.getD, hj]

/-- Settles O34: WIN has one output, the table of its window. -/
theorem winTabulatesTheWindow : Obligations.WinTabulatesTheWindow := by
  rintro i w s hiw hmem hacc
  have hrow : w ≠ .custom ∧ tableEvenM i s = isEven s.len.toNat ∧
      outputRegions i s = [(s.dst0.toNat, s.len.toNat)] ∧
      ∀ ins, tableOutputs i s ins = [winTable Config.params w s.len.toNat] := by
    obtain ⟨rfl, rfl⟩ | ⟨rfl, rfl⟩ := hiw <;> exact ⟨nofun, rfl, rfl, fun _ => rfl⟩
  obtain ⟨hw, heven, hregion, hout⟩ := hrow
  obtain ⟨t, hexec, hframe, hmemory, hstatus, hwords⟩ :=
    exec_one_output hmem hacc hregion (hout _)
  refine ⟨t, hexec, hframe, hmemory, ?_, fun j hj => ?_⟩
  · rw [hstatus, heven, acceptedStatus_isEven]
  · rw [hwords j hj, winTable_getD _ _ hj, windowWeight_eq_weight hw]

/-! ### A caller's table in the place of a built-in window (R143) -/

@[simp] theorem windowWeight_custom (p : Params) (i m : Nat) (tab : List Word) :
    windowWeight p .custom i m tab = tab.getD i ZERO := rfl

/-- A kernel reads its window at the indices below its length only. -/
theorem lowPassKernel_custom {p : Params} {w : WSel} {m : Nat} {tab tab' : List Word}
    (htab : ∀ j, j < m → tab.getD j ZERO = windowWeight p w j m tab') (c : Word) :
    lowPassKernel p c m .custom tab = lowPassKernel p c m w tab' := by
  refine List.map_congr_left fun j hj => ?_
  simp only [lowPassTap, windowWeight_custom, htab j (List.mem_range.mp hj)]

theorem bandPassKernel_custom {p : Params} {w : WSel} {m : Nat} {tab tab' : List Word}
    (htab : ∀ j, j < m → tab.getD j ZERO = windowWeight p w j m tab') (cl cu : Word) :
    bandPassKernel p cl cu m .custom tab = bandPassKernel p cl cu m w tab' := by
  simp only [bandPassKernel, lowPassKernel_custom htab]

/-- Phases of different operands agree when the checks fail alike, the outputs go to the same regions,
and the computed sequences are the same. -/
theorem runPhases_congr {p : Params} {s : State} {lc pc : Option Cause} {o o' : Operands}
    {f f' : List (List Word) → List (List Word)} (e : Bool)
    (hfail : firstFailure p lc pc o = firstFailure p lc pc o') (houts : o.outs = o'.outs)
    (hf : f (readInputs p s o) = f' (readInputs p s o')) :
    runPhases p s lc pc o e f = runPhases p s lc pc o' e f' := by
  simp only [runPhases, hfail, commit, houts, hf]

/-- Regions that are apart do not overlap, empty or not. -/
theorem overlaps_of_apart {r q : Nat × Nat} (h : Apart r q) :
    overlaps ⟨r.1, r.2⟩ ⟨q.1, q.2⟩ = false := by
  unfold Apart at h
  rw [← Bool.not_eq_true]
  simp only [overlaps, Bool.and_eq_true, decide_eq_true_eq]
  omega

theorem firstFailure_of_regions_ok {p : Params} {o : Operands} (hbounds : boundsCheck p o = none)
    (hoverlap : overlapCheck o = none) (lc pc : Option Cause) :
    firstFailure p lc pc o = lc.or pc := by
  cases lc <;> cases pc <;> simp [firstFailure, hbounds, hoverlap]

section
variable {s : State} (hfit : RegionsFit .lpfCustom s) (hapart : RegionsApart .lpfCustom s)
include hfit hapart

/-- With the custom form's regions in bounds and apart, no form of a filter fails a region check: the
built-in forms lack the table and have the same output. -/
theorem firstFailure_filterOperands (w : WSel) (lc pc : Option Cause) :
    firstFailure Config.params lc pc (filterOperands w s) = lc.or pc := by
  have htable : s.wtab.toNat + s.len.toNat ≤ 2 ^ Config.params.aw := hfit _ List.mem_cons_self
  have hkernel : s.dst0.toNat + s.len.toNat ≤ 2 ^ Config.params.aw :=
    hfit (_, _) (List.mem_cons_of_mem _ List.mem_cons_self)
  have hoverlap := overlaps_of_apart (hapart.1 _ List.mem_cons_self _ List.mem_cons_self)
  refine firstFailure_of_regions_ok ?_ ?_ lc pc
  · rw [boundsCheck_none_iff]
    cases w <;> simp [filterOperands, Params.bufWords, htable, hkernel]
  · rw [overlapCheck_none_iff]
    cases w <;> simp [filterOperands, outputClash, someOverlap, hoverlap]

/-- A filter's custom form does what its built-in form does, when the kernel is the same. -/
theorem filter_custom_eq {w : WSel} (hw : w ≠ .custom) (kernel : WSel → List Word → List Word)
    (hkernel : kernel .custom (readSeq Config.params s.mem ⟨s.wtab.toNat, s.len.toNat⟩) = kernel w [])
    (lc pc : Option Cause) (e : Bool) :
    runPhases Config.params s lc pc (filterOperands .custom s) e
        (fun ins => [kernel .custom (ins.getD 0 [])]) =
      runPhases Config.params s lc pc (filterOperands w s) e
        (fun ins => [kernel w (ins.getD 0 [])]) := by
  refine runPhases_congr e ?_ rfl ?_
  · rw [firstFailure_filterOperands hfit hapart, firstFailure_filterOperands hfit hapart]
  · cases w with
    | hamming => exact congrArg (fun k => [k]) hkernel
    | blackman => exact congrArg (fun k => [k]) hkernel
    | custom => exact absurd rfl hw

/-- A table in memory with the weights of a built-in window stands for that window in each of the
three filters. -/
theorem filterCommands_custom_eq {w : WSel} (hw : w ≠ .custom)
    (htab : ∀ j, j < s.len.toNat → word s (s.wtab.toNat + j) = weight w s j s.len.toNat) :
    lpfCommand Config.params .custom s = lpfCommand Config.params w s ∧
    hpfCommand Config.params .custom s = hpfCommand Config.params w s ∧
    bpfCommand Config.params .custom s = bpfCommand Config.params w s := by
  have hweights : ∀ j, j < s.len.toNat →
      (readSeq Config.params s.mem ⟨s.wtab.toNat, s.len.toNat⟩).getD j ZERO =
        windowWeight Config.params w j s.len.toNat [] := fun j hj => by
    rw [readSeq_getD _ _ _ hj, windowWeight_eq_weight hw s, ← htab j hj, word]
  have hlow := lowPassKernel_custom hweights
  have hband := bandPassKernel_custom hweights
  refine ⟨?_, ?_, ?_⟩
  · exact filter_custom_eq hfit hapart hw
      (lowPassKernel Config.params (cutoffRatio Config.params s.fc0 s.fs) s.len.toNat) (hlow _) _ _ _
  · exact filter_custom_eq hfit hapart hw
      (fun w tab => spectralInvert Config.params
        (lowPassKernel Config.params (cutoffRatio Config.params s.fc0 s.fs) s.len.toNat w tab)
        s.len.toNat) (by rw [hlow]) _ _ _
  · exact filter_custom_eq hfit hapart hw
      (bandPassKernel Config.params (cutoffRatio Config.params s.fc0 s.fs)
        (cutoffRatio Config.params s.fc1 s.fs) s.len.toNat) (hband _ _) _ _ _

end

/-- Settles O37: the custom form reads the built-in window's weights from the table. -/
theorem tabulatedWindowEqualsBuiltIn : Obligations.TabulatedWindowEqualsBuiltIn := by
  intro s hfit hapart
  constructor
  · intro htab
    obtain ⟨hlpf, hhpf, hbpf⟩ :=
      filterCommands_custom_eq hfit hapart (w := .hamming) nofun htab
    exact ⟨congrArg Host.Outcome.next hlpf, congrArg Host.Outcome.next hhpf,
      congrArg Host.Outcome.next hbpf⟩
  · intro htab
    obtain ⟨hlpf, hhpf, hbpf⟩ :=
      filterCommands_custom_eq hfit hapart (w := .blackman) nofun htab
    exact ⟨congrArg Host.Outcome.next hlpf, congrArg Host.Outcome.next hhpf,
      congrArg Host.Outcome.next hbpf⟩

end Sys2Proof.Machine
end

section
/-! The real-input transform pair: the divisors of IDFT, the NaN and DC bins of DFT, and the sums an
accepted `dft` and an accepted `idft` write (43_real_transform.md). -/

namespace Sys2Proof.Machine

/-! ### Division by the negated divisor (R156) -/

/-- The quotients that are NaNs are those of a NaN, of two infinities and of two zeros (R112). -/
theorem isNaN_fdiv (p : Params) (a b : Word) :
    isNaN (fdiv p a b) = (isNaN a || isNaN b || (isInf a && isInf b || isZero a && isZero b)) := by
  unfold fdiv
  split
  · next h => simp [h]
  next hnan =>
  split
  · next h => simp [h]
  next hinvalid =>
  rw [Bool.eq_false_iff.mpr hnan, Bool.eq_false_iff.mpr hinvalid]
  split
  · exact isNaN_pack_of_le _ le_rfl
  split
  · exact isNaN_pack_of_le _ (Nat.zero_le _)
  · exact isNaN_pack_round _ _ _

/-- The low 63 bits of a quotient that is not a NaN (R111, R112). -/
def quotientBits (a b : Word) : Nat :=
  if isInf a || isZero b then infBits
  else if isInf b then 0
  else roundBits (magnitude a * 2 ^ 1074) (magnitude b)

theorem quotientBits_lt (a b : Word) : quotientBits a b < 2 ^ 63 := by
  unfold quotientBits
  split
  · exact infBits_lt
  split
  · exact Nat.two_pow_pos 63
  · exact roundBits_lt _ _

@[simp] theorem quotientBits_fneg (a b : Word) : quotientBits a (fneg b) = quotientBits a b := by
  simp only [quotientBits, isZero_fneg, isInf_fneg, magnitude_fneg]

/-- A quotient that is not a NaN is its sign and its bits. -/
theorem fdiv_eq_pack {p : Params} {a b : Word} (h : isNaN (fdiv p a b) = false) :
    fdiv p a b = pack (signOf a != signOf b) (quotientBits a b) := by
  rw [isNaN_fdiv, Bool.or_eq_false_iff] at h
  obtain ⟨hnan, hinvalid⟩ := h
  rw [fdiv, quotientBits, hnan, hinvalid, if_neg Bool.false_ne_true, if_neg Bool.false_ne_true,
    apply_ite (pack _), apply_ite (pack _)]

/-- Settles O55: the divisor's sign enters a quotient's sign alone. -/
theorem negatedDivisorNegatesTheQuotient : Obligations.NegatedDivisorNegatesTheQuotient := by
  intro p a d h
  have hneg : isNaN (fdiv p a (fneg d)) = false := by
    rw [isNaN_fdiv] at h ⊢
    simpa using h
  rw [fdiv_eq_pack hneg, fdiv_eq_pack h, fneg_pack _ (quotientBits_lt a d), quotientBits_fneg,
    signOf_fneg, Bool.bne_not]

/-! ### The two sums of a bin (R151, R150) -/

theorem dftBin_fst (p : Params) (x : List Word) (n k : Nat) :
    (dftBin p x n k).1 = (List.range n).foldl
      (fun re i => fadd p re (fmul p (x.getD i ZERO) (p.fcos (angleOf p k i n)))) ZERO :=
  (List.foldl_hom Prod.fst fun _ _ => rfl).symm

theorem dftBin_snd (p : Params) (x : List Word) (n k : Nat) :
    (dftBin p x n k).2 = (List.range n).foldl
      (fun im i => fsub p im (fmul p (x.getD i ZERO) (p.fsin (angleOf p k i n)))) ZERO :=
  (List.foldl_hom Prod.snd fun _ _ => rfl).symm

section
variable (p : Params) {β : Type} (g : β → Word) {l : List β} {b : β} (hb : b ∈ l)
  (hg : isNaN (g b) = true) (init : Word)
include hb hg

/-- A sum with a NaN term is a NaN: the term makes it one, and every later step keeps it one. -/
theorem isNaN_foldl_fadd : isNaN (l.foldl (fun acc c => fadd p acc (g c)) init) = true := by
  obtain ⟨before, after, rfl⟩ := List.append_of_mem hb
  rw [List.foldl_append, List.foldl_cons]
  exact List.foldlRecOn (motive := (isNaN · = true)) after _ (fadd_nan p (.inr hg))
    fun _ hacc _ _ => fadd_nan p (.inl hacc)

theorem isNaN_foldl_fsub : isNaN (l.foldl (fun acc c => fsub p acc (g c)) init) = true :=
  isNaN_foldl_fadd p (fun c => fneg (g c)) hb (by rwa [isNaN_fneg]) init

end

/-- Settles O39: the NaN sample's term is a NaN in both sums of a bin. -/
theorem nanSampleMakesEveryBinNan : Obligations.NanSampleMakesEveryBinNan := by
  rintro p x k ⟨v, hv, hnan⟩
  obtain ⟨j, hj, rfl⟩ := List.mem_iff_getElem.mp hv
  rw [← List.getD_eq_getElem x ZERO hj] at hnan
  have hmem := List.mem_range.mpr hj
  rw [dftBin_fst, dftBin_snd]
  constructor
  · refine isNaN_foldl_fadd p _ hmem ?_ _
    exact fmul_nan p (.inl hnan)
  · refine isNaN_foldl_fsub p _ hmem ?_ _
    exact fmul_nan p (.inl hnan)

/-! ### Bin 0 (R152) -/

/-- The elements of a list, by their indices in order. -/
theorem map_range_getD (x : List Word) (d : Word) :
    (List.range x.length).map (fun i => x.getD i d) = x := by
  refine List.ext_getElem (by simp) fun i _ hi => ?_
  rw [List.getElem_map, List.getElem_range, List.getD_eq_getElem x d hi]

/-- A sum over the indices of a list whose steps read only the element. -/
theorem foldl_range_getD (x : List Word) (d : Word) (f : Word → Word → Word) (init : Word) :
    (List.range x.length).foldl (fun acc i => f acc (x.getD i d)) init = x.foldl f init := by
  conv_rhs => rw [← map_range_getD x d, List.foldl_map]

/-- With the default angle and P-ZERO, the factors of bin 0 are 1 and +0. -/
theorem dftBin_zero {p : Params} {x : List Word} (hzero : PZero p) (hangle : p.angle = .standard)
    (hlen : x.length ≤ 2 ^ 32) :
    (dftBin p x x.length 0).1 = x.foldl (fun re v => fadd p re (fmul p v ONE)) ZERO ∧
    (dftBin p x x.length 0).2 = x.foldl (fun im v => fsub p im (fmul p v ZERO)) ZERO := by
  obtain ⟨hsin, -, hcos, -⟩ := hzero
  have hfactors : ∀ i ∈ List.range x.length,
      p.fcos (angleOf p 0 i x.length) = ONE ∧ p.fsin (angleOf p 0 i x.length) = ZERO := by
    intro i hi
    have hi := List.mem_range.mp hi
    obtain ⟨hat0, -⟩ :=
      defaultAngleIsZeroOnTheAxes p 0 i x.length hangle (by omega) hlen (by omega) hi
    rw [hat0]
    exact ⟨hcos, hsin⟩
  rw [dftBin_fst, dftBin_snd, ← foldl_range_getD x ZERO, ← foldl_range_getD x ZERO]
  constructor
  · exact List.foldl_ext _ _ _ fun re i hi => by rw [(hfactors i hi).1]
  · exact List.foldl_ext _ _ _ fun im i hi => by rw [(hfactors i hi).2]

/-- 1 is a right unit of the product on every word that is not a NaN. -/
theorem fmul_ONE_of_not_nan (p : Params) {a : Word} (h : isNaN a = false) : fmul p a ONE = a := by
  obtain ha | ha | ha := kind_cases a
  · simp [ha] at h
  · have hONE : isNaN ONE = false ∧ isZero ONE = false ∧ isInf ONE = false ∧ signOf ONE = false := by
      decide
    obtain ⟨hnan, h0, hinf, hsign⟩ := hONE
    simp [fmul, h, ha, not_zero_of_inf ha, hnan, h0, hinf, hsign, pack_inf ha]
  · exact fmul_ONE p ha

/-- A product with a word that is not finite and +0 is a NaN. -/
theorem isNaN_fmul_ZERO (p : Params) {a : Word} (h : isFinite a = false) :
    isNaN (fmul p a ZERO) = true := by
  obtain ha | ha | ha := kind_cases a
  · exact fmul_nan p (.inl ha)
  · exact (fmul_zero_inf p (a := ZERO) (by decide) ha).2
  · simp [ha] at h

/-- +0 less a zero of either sign is +0. -/
theorem fsub_ZERO_zero (p : Params) {a : Word} (h : isZero a = true) : fsub p ZERO a = ZERO := by
  rw [fsub, fadd_zeros p (by decide) (by rwa [isZero_fneg])]
  rfl

/-- Settles O38: the real terms are the samples, and the imaginary ones are zeros, or NaNs for samples
that are not finite. -/
theorem dcBinIsTheSequentialSum : Obligations.DcBinIsTheSequentialSum := by
  intro p x hzero hangle _ hlen
  obtain ⟨hre, him⟩ := dftBin_zero hzero hangle hlen
  rw [hre, him]
  refine ⟨fun hx => ?_, fun hx => ?_, ?_⟩
  · exact List.foldl_ext _ _ _ fun re v hv => by rw [fmul_ONE_of_not_nan p (hx v hv)]
  · refine List.foldlRecOn (motive := (· = ZERO)) x _ rfl fun im him v hv => ?_
    rw [him, fmul_zero_right p (hx v hv) (by decide), fsub_ZERO_zero p (isZero_pack_zero _)]
  · rintro ⟨v, hv, hinf⟩
    refine isNaN_foldl_fsub p _ hv ?_ _
    exact isNaN_fmul_ZERO p hinf

/-! ### An accepted command with two outputs -/

/-- What an accepted command with two output regions leaves: the outputs' words in the regions, the
command's STATUS word, and nothing else. -/
theorem exec_two_outputs {i : Instr} {s : State} (hmem : Memory.wf Config.params s.mem = true)
    (hacc : Accepted i s) {r q : Nat × Nat} (hregions : outputRegions i s = [r, q])
    {out out' : List Word}
    (houtputs : tableOutputs i s (readInputs Config.params s (tableOperands i s)) = [out, out']) :
    ∃ t, exec i s = .next t ∧ OnlyResults s t ∧ OnlyOutputsWritten i s t ∧
      t.status = acceptedStatus (tableEvenM i s) ∧
      (∀ j, j < r.2 → word t (r.1 + j) = out.getD j 0) ∧
      (∀ j, j < q.2 → word t (q.1 + j) = out'.getD j 0) := by
  refine ⟨_, exec_accepted hacc, onlyResults_commit _ _ _ _ _, onlyOutputsWritten_commit i s _ _,
    rfl, ?_⟩
  have houts : (tableOperands i s).outs = [⟨r.1, r.2⟩, ⟨q.1, q.2⟩] := by
    rw [tableOperands, hregions]
    rfl
  have hlen := tableOutputs_lengths i s (readInputs Config.params s (tableOperands i s))
  have hfit := hacc.outs_fit
  rw [LengthsMatch, houtputs, houts, List.forall₂_cons, List.forall₂_cons] at hlen
  rw [houts, List.forall_mem_cons, List.forall_mem_singleton] at hfit
  obtain ⟨hlenR, hlenQ, -⟩ := hlen
  obtain ⟨hfitR, hfitQ⟩ := hfit
  obtain ⟨-, -, -, -, -, hpairwise⟩ := hacc
  rw [hregions, List.pairwise_pair] at hpairwise
  simp only [word, commit_mem, houtputs, houts]
  exact memRead_storeAll_two Config.params hmem _ _ out out' hlenR hlenQ hfitR hfitQ hpairwise

/-! ### The words of `dft` (R151) -/

/-- STATUS of an accepted transform: EVENM is clear (R22). -/
theorem acceptedStatus_clear : acceptedStatus false = 0x01 := by decide

theorem getD_map_range {n j : Nat} (f : Nat → Word) (hj : j < n) (d : Word) :
    ((List.range n).map f).getD j d = f j := by
  simp [List.getD, hj]

theorem dftOutputs_eq (p : Params) (x : List Word) (n : Nat) :
    dftOutputs p x n =
      [(List.range (n / 2)).map (fun k => (dftBin p x n k).1),
       (List.range (n / 2)).map (fun k => (dftBin p x n k).2)] := by
  simp [dftOutputs, Function.comp_def]

/-- Element j of an input region is the word at base + j, where the command reads it. -/
theorem readSeq_getD_word (s : State) (base : Nat) {len j : Nat} (hj : j < len) :
    (readSeq Config.params s.mem ⟨base, len⟩).getD j ZERO = word s (base + j) :=
  readSeq_getD Config.params s.mem ⟨base, len⟩ hj ZERO

/-- Settles O27: `dft` has two outputs, the parts of the bins, whose sums read the samples from
memory. -/
theorem dftComputesEveryBin : Obligations.DftComputesEveryBin := by
  intro s hmem hacc
  obtain ⟨t, hexec, hframe, hmemory, hstatus, hre, him⟩ :=
    exec_two_outputs hmem hacc rfl (dftOutputs_eq _ _ _)
  refine ⟨t, hexec, hframe, hmemory, hstatus.trans acceptedStatus_clear, fun k hk => ⟨?_, ?_⟩⟩
  · rw [hre k hk, getD_map_range _ hk, dftBin_fst]
    exact List.foldl_ext _ _ _ fun re i hi =>
      congrArg (fun x => fadd _ re (fmul _ x _)) (readSeq_getD_word s _ (List.mem_range.mp hi))
  · rw [him k hk, getD_map_range _ hk, dftBin_snd]
    exact List.foldl_ext _ _ _ fun im i hi =>
      congrArg (fun x => fsub _ im (fmul _ x _)) (readSeq_getD_word s _ (List.mem_range.mp hi))

/-! ### The words of `idft` (R155) -/

/-- Settles O28: `idft` has one output, the samples, whose sums read the bins from memory. -/
theorem idftComputesEverySample : Obligations.IdftComputesEverySample := by
  intro s hmem hacc
  obtain ⟨t, hexec, hframe, hmemory, hstatus, hwords⟩ := exec_one_output hmem hacc rfl rfl
  refine ⟨t, hexec, hframe, hmemory, hstatus.trans acceptedStatus_clear, fun i hi => ?_⟩
  rw [hwords i hi, getD_map_range _ hi]
  refine List.foldl_ext _ _ _ fun acc k hk => ?_
  have hk := List.mem_range.mp hk
  have hre := readSeq_getD_word s s.src0.toNat hk
  have him := readSeq_getD_word s s.src1.toNat hk
  simp only [synth, scaledRe, scaledIm, ← hre, ← him]
  rfl

end Sys2Proof.Machine
end

section
/-! The complex transform: the sums an accepted `cdft` writes, and what the REFERENCE form's
imaginary sum does not depend on (44_complex_transform.md). -/

namespace Sys2Proof.Machine

/-! ### The two sums of a bin (R170, R171) -/

theorem cdftBin_fst (p : Params) (a b : List Word) (n k : Nat) :
    (cdftBin p a b n k).1 = (List.range n).foldl
      (fun re i => fadd p re (fadd p (fmul p (a.getD i ZERO) (p.fcos (angleOf p k i n)))
        (fmul p (b.getD i ZERO) (p.fsin (angleOf p k i n))))) ZERO :=
  (List.foldl_hom Prod.fst fun _ _ => rfl).symm

theorem cdftBin_snd (p : Params) (a b : List Word) (n k : Nat) :
    (cdftBin p a b n k).2 = (List.range n).foldl
      (fun im i => fadd p im (complexImTerm p (a.getD i ZERO) (b.getD i ZERO)
        (p.fcos (angleOf p k i n)) (p.fsin (angleOf p k i n)))) ZERO :=
  (List.foldl_hom Prod.snd fun _ _ => rfl).symm

/-- In the REFERENCE form no term of the imaginary sum reads the real input. -/
theorem cdftBin_snd_reference {p : Params} (h : p.cdftForm = .reference) (a b : List Word)
    (n k : Nat) :
    (cdftBin p a b n k).2 = (List.range n).foldl
      (fun im i => fadd p im (fsub p (fmul p (b.getD i ZERO) (p.fsin (angleOf p k i n)))
        (fmul p (b.getD i ZERO) (p.fcos (angleOf p k i n))))) ZERO := by
  simp only [cdftBin_snd, complexImTerm, h]

theorem cdftBin_snd_canonical {p : Params} (h : p.cdftForm = .canonical) (a b : List Word)
    (n k : Nat) :
    (cdftBin p a b n k).2 = (List.range n).foldl
      (fun im i => fadd p im (fsub p (fmul p (b.getD i ZERO) (p.fcos (angleOf p k i n)))
        (fmul p (a.getD i ZERO) (p.fsin (angleOf p k i n))))) ZERO := by
  simp only [cdftBin_snd, complexImTerm, h]

/-! ### The words of `cdft` (R171) -/

theorem cdftOutputs_eq (p : Params) (a b : List Word) (n : Nat) :
    cdftOutputs p a b n =
      [(List.range n).map (fun k => (cdftBin p a b n k).1),
       (List.range n).map (fun k => (cdftBin p a b n k).2)] := by
  simp [cdftOutputs, Function.comp_def]

/-- Settles O29: `cdft` has two outputs, the parts of the bins, whose sums read both inputs from
memory, and the form selects the imaginary sum's term. -/
theorem cdftComputesEveryBin : Obligations.CdftComputesEveryBin := by
  intro s hmem hacc
  obtain ⟨t, hexec, hframe, hmemory, hstatus, hre, him⟩ :=
    exec_two_outputs hmem hacc rfl (cdftOutputs_eq _ _ _ _)
  have hread (base : Nat) {i : Nat} (hi : i ∈ List.range s.len.toNat) :=
    readSeq_getD_word s base (List.mem_range.mp hi)
  refine ⟨t, hexec, hframe, hmemory, hstatus.trans acceptedStatus_clear, fun k hk =>
    ⟨?_, fun hform => ?_, fun hform => ?_⟩⟩
  · rw [hre k hk, getD_map_range _ hk, cdftBin_fst]
    exact List.foldl_ext _ _ _ fun re i hi =>
      congrArg₂ (fun x y => fadd _ re (fadd _ (fmul _ x _) (fmul _ y _))) (hread _ hi) (hread _ hi)
  · rw [him k hk, getD_map_range _ hk, cdftBin_snd_reference hform]
    exact List.foldl_ext _ _ _ fun im i hi =>
      congrArg (fun y => fadd _ im (fsub _ (fmul _ y _) (fmul _ y _))) (hread _ hi)
  · rw [him k hk, getD_map_range _ hk, cdftBin_snd_canonical hform]
    exact List.foldl_ext _ _ _ fun im i hi =>
      congrArg₂ (fun x y => fadd _ im (fsub _ (fmul _ y _) (fmul _ x _))) (hread _ hi) (hread _ hi)

/-! ### The real input in the REFERENCE form (R171, corner cases) -/

/-- Settles O40: both imaginary sums are the one sum over the imaginary input. -/
theorem referenceImaginaryIgnoresRealInput : Obligations.ReferenceImaginaryIgnoresRealInput := by
  intro p a a' b n k hform
  rw [cdftBin_snd_reference hform, cdftBin_snd_reference hform]

/-! ### The default angle is finite (R119) -/

/-- A rounded magnitude is at most twice the exact one, as +0 is not nearer. -/
theorem NearestEven.magnitude_le {n d : Nat} {c : Word} (hc : NearestEven n d c)
    (hfin : Machine.isFinite c = true) : magnitude c * d ≤ 2 * n := by
  obtain ⟨-, -, hnear⟩ := hc
  obtain ⟨hle, -⟩ := hnear hfin ZERO (by decide)
  rw [show magnitude ZERO = 0 by decide, Nat.zero_mul] at hle
  omega

section
variable (p : Params) {a : Word} {e m : Nat} (ha : isFinite a = true) (hmag : magnitude a ≤ 2 ^ e)
  (he : e ≤ 2044) (hm : m ≤ 2 ^ 53)
include ha hmag he hm

/-- A product with an index is finite, and 54 bits longer at most. -/
theorem fmul_i2f_bound :
    isFinite (fmul p a (i2f m)) = true ∧ magnitude (fmul p a (i2f m)) ≤ 2 ^ (e + 54) := by
  obtain ⟨hfinM, hmagM⟩ := @i2f_exact m hm
  have hexact : magnitude a * magnitude (i2f m) = m * magnitude a * 2 ^ 1074 := by
    rw [hmagM, Int.natAbs_natCast, ← Nat.mul_assoc, Nat.mul_comm m]
  have hfin : isFinite (fmul p a (i2f m)) = true := by
    refine isFinite_fmul p ha hfinM ?_
    rw [hexact]
    exact Nat.mul_lt_mul_of_pos_right (mul_lt_overflow hm hmag he) unit_pos
  have hnear := nearestEven_pack_roundBits (magnitude a * magnitude (i2f m)) unit_pos
    (signOf a != signOf (i2f m))
  rw [← fmul_finite p ha hfinM, hexact] at hnear
  have hle := hnear.magnitude_le hfin
  rw [← Nat.mul_assoc] at hle
  refine ⟨hfin, ?_⟩
  calc magnitude (fmul p a (i2f m))
      ≤ 2 * (m * magnitude a) := Nat.le_of_mul_le_mul_right hle unit_pos
    _ ≤ 2 * (2 ^ 53 * 2 ^ e) := Nat.mul_le_mul_left 2 (Nat.mul_le_mul hm hmag)
    _ = 2 ^ (e + 54) := by ring

/-- A quotient by a positive length is finite: the exact one is not larger than the word divided. -/
theorem isFinite_fdiv_i2f (hpos : 0 < m) : isFinite (fdiv p a (i2f m)) = true := by
  obtain ⟨hfinM, -, h0⟩ := i2f_natCast hm
  have hnear := nearestEven_pack_roundBits (magnitude a * 2 ^ 1074) (magnitude_pos (h0 hpos))
    (signOf a != signOf (i2f m))
  have hlt : 1 * magnitude a < (2 ^ 54 - 1) * 2 ^ 2044 := mul_lt_overflow (by decide) hmag he
  rw [Nat.one_mul] at hlt
  rw [fdiv_finite p ha hfinM (h0 hpos)]
  refine hnear.isFinite ?_
  rw [(@i2f_exact m hm).2, Int.natAbs_natCast, ← Nat.mul_assoc]
  exact Nat.mul_lt_mul_of_pos_right (hlt.trans_le (Nat.le_mul_of_pos_right _ hpos)) unit_pos

end

/-- The default angle of an index up to 2^53 in a sequence of at most 2^53 elements is finite. -/
theorem isFinite_angleOf {p : Params} (hangle : p.angle = .standard) {k i n : Nat} (hk : k ≤ 2 ^ 53)
    (hi : i ≤ 2 ^ 53) (hpos : 0 < n) (hn : n ≤ 2 ^ 53) : isFinite (angleOf p k i n) = true := by
  have hpi := (magnitude_lt_two_pow TWO_PI).le
  rw [show expOf TWO_PI = 1025 by decide] at hpi
  obtain ⟨hfinK, hmagK⟩ := fmul_i2f_bound p (by decide) hpi (by decide) hk
  obtain ⟨hfinI, hmagI⟩ := fmul_i2f_bound p hfinK hmagK (by decide) hi
  rw [angleOf_standard hangle]
  exact isFinite_fdiv_i2f p hfinI hmagI (by decide) hn hpos

/-! ### An imaginary input of zeros in the REFERENCE form (R171, corner cases) -/

/-- A word from -1 to 1 is finite: it is not a NaN, and an infinity's value lies beyond 1. -/
theorem isFinite_of_unit_range {x : Word} (hlow : fge x (fneg ONE) = true)
    (hhigh : fge ONE x = true) : isFinite x = true := by
  obtain hx | hx | hx := kind_cases x
  · obtain ⟨-, hge, -⟩ := compare_nan (b := fneg ONE) (.inl hx)
    exact absurd (hge.symm.trans hlow) Bool.false_ne_true
  · obtain ⟨-, hgeLow, -⟩ := compare_values (b := fneg ONE) (not_nan_of_inf hx) (by decide)
    obtain ⟨-, hgeHigh, -⟩ := compare_values (a := ONE) (by decide) (not_nan_of_inf hx)
    rw [hgeLow, decide_eq_true_eq] at hlow
    rw [hgeHigh, decide_eq_true_eq] at hhigh
    obtain ⟨habove, -⟩ := scaled_finite_inf (a := ONE) (by decide) hx
    obtain ⟨-, hbelow⟩ := scaled_finite_inf (a := fneg ONE) (by decide) hx
    cases hs : signOf x
    · exact absurd hhigh (habove hs).not_ge
    · exact absurd hlow (hbelow hs).not_ge
  · exact hx

/-- P-RANGE makes sine and cosine of a finite angle finite. -/
theorem PRange.isFinite_fsin_fcos {p : Params} (h : PRange p) {x : Word}
    (hx : Machine.isFinite x = true) :
    Machine.isFinite (p.fsin x) = true ∧ Machine.isFinite (p.fcos x) = true := by
  obtain ⟨htrig, -⟩ := h
  obtain ⟨hsinLow, hsinHigh, hcosLow, hcosHigh⟩ := htrig x hx
  exact ⟨isFinite_of_unit_range hsinLow hsinHigh, isFinite_of_unit_range hcosLow hcosHigh⟩

/-- +0 plus a zero of either sign is +0. -/
theorem fadd_ZERO_zero (p : Params) {a : Word} (h : isZero a = true) : fadd p ZERO a = ZERO := by
  rw [fadd_zeros p (by decide) h]
  rfl

/-- The REFERENCE term of a zero imaginary sample is a zero, when the two factors are finite. -/
theorem isZero_reference_term (p : Params) {b c s : Word} (hb : isZero b = true)
    (hc : isFinite c = true) (hs : isFinite s = true) :
    isZero (fsub p (fmul p b s) (fmul p b c)) = true := by
  rw [fmul_zero_left p hb hs, fmul_zero_left p hb hc, fsub,
    fadd_zeros p (isZero_pack_zero _) (by rw [isZero_fneg, isZero_pack_zero])]
  exact isZero_pack_zero _

/-- Settles O41: the angles are finite, so every term is a zero, and a sum of zeros that starts at
+0 stays +0. -/
theorem referenceRealInputGivesZeroImaginary :
    Obligations.ReferenceRealInputGivesZeroImaginary := by
  intro p a b n k hform hangle hrange hpos hn hk hlen hzero
  have hlength : n ≤ 2 ^ 53 := hn.trans (by decide)
  rw [cdftBin_snd_reference hform]
  refine List.foldlRecOn (motive := (· = ZERO)) _ _ rfl fun im him i hi => ?_
  have hi := List.mem_range.mp hi
  have hsample : isZero (b.getD i ZERO) = true := by
    rw [List.getD_eq_getElem b ZERO (hlen ▸ hi)]
    exact hzero _ (List.getElem_mem _)
  obtain ⟨hsin, hcos⟩ := hrange.isFinite_fsin_fcos
    (isFinite_angleOf hangle (hk.le.trans hlength) (hi.le.trans hlength) hpos hlength)
  rw [him, fadd_ZERO_zero p (isZero_reference_term p hsample hcos hsin)]

end Sys2Proof.Machine
end

section
/-! The rectangular to polar converter: the words an accepted `r2p` writes, the sign of a magnitude,
and the phase on the real axis, for NaNs, for infinite quotients and in general
(45_rect2polar.md). -/

namespace Sys2Proof.Machine

/-! ### Comparisons with +0 (R115) -/

/-- The words below +0 are those with the sign bit set that are neither NaNs nor -0. -/
theorem flt_ZERO {a : Word} (h : isNaN a = false) : flt a ZERO = (signOf a && !isZero a) := by
  obtain ⟨hlt, -, -⟩ := compare_values h (b := ZERO) (by decide)
  rw [hlt, show scaled ZERO = 0 by decide]
  cases h0 : isZero a
  · rw [Bool.eq_iff_iff, decide_eq_true_eq, scaled_neg_iff h0, Bool.not_false, Bool.and_true]
  · rw [scaled_eq_zero.mpr h0, Bool.not_true, Bool.and_false]
    rfl

/-- Away from NaNs the two sign tests of R180 exclude each other, and one of them holds. -/
theorem fge_ZERO {a : Word} (h : isNaN a = false) : fge a ZERO = !flt a ZERO := by
  obtain ⟨hlt, hge, -⟩ := compare_values h (b := ZERO) (by decide)
  rw [hlt, hge, ← decide_not, decide_eq_decide, not_lt]

theorem feq_ZERO (a : Word) : feq a ZERO = isZero a := by
  cases h : isNaN a
  · obtain ⟨-, -, heq⟩ := compare_values h (b := ZERO) (by decide)
    rw [heq, Bool.eq_iff_iff, decide_eq_true_eq, show scaled ZERO = 0 by decide, scaled_eq_zero]
  · obtain ⟨-, -, heq⟩ := compare_nan (b := ZERO) (.inl h)
    rw [heq, eq_comm, ← Bool.not_eq_true]
    intro h0
    exact absurd (not_nan_of_zero h0) (by simp [h])

/-- A comparison that holds is of a word that is not a NaN. -/
theorem not_nan_of_flt {a b : Word} (h : flt a b = true) : isNaN a = false ∧ isNaN b = false := by
  simp only [flt, Bool.and_eq_true, Bool.not_eq_true'] at h
  exact h.1

/-! ### The real part of the quotient (R180) -/

theorem nonzeroReal_of_zero {r : Word} (h : isZero r = true) : nonzeroReal r = TINY := by
  rw [nonzeroReal, feq_ZERO, if_pos h]

theorem nonzeroReal_of_nonzero {r : Word} (h : isZero r = false) : nonzeroReal r = r := by
  rw [nonzeroReal, feq_ZERO, h, if_neg Bool.false_ne_true]

@[simp] theorem isZero_nonzeroReal (r : Word) : isZero (nonzeroReal r) = false := by
  cases h : isZero r
  · rw [nonzeroReal_of_nonzero h, h]
  · rw [nonzeroReal_of_zero h]
    decide

@[simp] theorem isNaN_nonzeroReal (r : Word) : isNaN (nonzeroReal r) = isNaN r := by
  cases h : isZero r
  · rw [nonzeroReal_of_nonzero h]
  · rw [nonzeroReal_of_zero h, not_nan_of_zero h]
    decide

/-- The divisor is negative exactly when the real part passes the sign test. -/
theorem signOf_nonzeroReal {r : Word} (h : isNaN r = false) :
    signOf (nonzeroReal r) = flt r ZERO := by
  rw [flt_ZERO h]
  cases h0 : isZero r
  · rw [nonzeroReal_of_nonzero h0, Bool.not_false, Bool.and_true]
  · rw [nonzeroReal_of_zero h0, Bool.not_true, Bool.and_false]
    decide

/-! ### The phase and its base case (R180) -/

/-- The arctangent of the quotient, before the quadrant correction. -/
def polarBase (p : Params) (r m : Word) : Word := p.fatan (fdiv p m (nonzeroReal r))

section
variable {p : Params} {r m : Word}

theorem polarPhase_of_neg_neg (hr : flt r ZERO = true) (hm : flt m ZERO = true) :
    polarPhase p r m = fsub p (polarBase p r m) PI := by
  simp [polarPhase, polarBase, hr, hm]

theorem polarPhase_of_neg_nonneg (hr : flt r ZERO = true) (hm : fge m ZERO = true) :
    polarPhase p r m = fadd p (polarBase p r m) PI := by
  have hlt : flt m ZERO = false := by
    cases hn : isNaN m
    · rw [fge_ZERO hn, Bool.not_eq_true'] at hm
      exact hm
    · exact (compare_nan (.inl hn)).1
  simp [polarPhase, polarBase, hr, hm, hlt]

theorem polarPhase_uncorrected
    (h : flt r ZERO = false ∨ (flt m ZERO = false ∧ fge m ZERO = false)) :
    polarPhase p r m = polarBase p r m := by
  obtain hr | ⟨hlt, hge⟩ := h
  · simp [polarPhase, polarBase, hr]
  · simp [polarPhase, polarBase, hlt, hge]

/-- With a negative real part, the correction has the sign of a non-zero imaginary part. -/
theorem polarPhase_corrected (hr : flt r ZERO = true) (hm : isNaN m = false)
    (h0 : isZero m = false) :
    polarPhase p r m = fadd p (polarBase p r m) (if signOf m then fneg PI else PI) := by
  have hlt : flt m ZERO = signOf m := by rw [flt_ZERO hm, h0, Bool.not_false, Bool.and_true]
  cases hs : signOf m
  · exact polarPhase_of_neg_nonneg hr (by rw [fge_ZERO hm, hlt, hs]; rfl)
  · exact polarPhase_of_neg_neg hr (hlt.trans hs)

/-- No correction turns a NaN into a number. -/
theorem isNaN_polarPhase (h : isNaN (polarBase p r m) = true) :
    isNaN (polarPhase p r m) = true := by
  cases hr : flt r ZERO
  · rwa [polarPhase_uncorrected (.inl hr)]
  cases hlt : flt m ZERO
  · cases hge : fge m ZERO
    · rwa [polarPhase_uncorrected (.inr ⟨hlt, hge⟩)]
    · rw [polarPhase_of_neg_nonneg hr hge]
      exact fadd_nan p (.inl h)
  · rw [polarPhase_of_neg_neg hr hlt]
    exact fsub_nan p (.inl h)

/-- A quotient that is not a NaN is of parts that are not NaNs, and its sign tells whether theirs
differ. -/
theorem quotient_spec (h : isNaN (fdiv p m (nonzeroReal r)) = false) :
    isNaN r = false ∧ isNaN m = false ∧
      signOf (fdiv p m (nonzeroReal r)) = (signOf m != flt r ZERO) := by
  have hparts := h
  rw [isNaN_fdiv, Bool.or_eq_false_iff, Bool.or_eq_false_iff, isNaN_nonzeroReal] at hparts
  obtain ⟨⟨hm, hr⟩, -⟩ := hparts
  exact ⟨hr, hm, by rw [signOf_fdiv p h, signOf_nonzeroReal hr]⟩

end

/-! ### The words of `r2p` (R180) -/

/-- A command leaves the words of its input regions as they are: no output region overlaps one
(R54, R56). -/
theorem word_input_unchanged {i : Instr} {s t : State} (hacc : Accepted i s)
    (hmemory : OnlyOutputsWritten i s t) {q : Nat × Nat} (hq : q ∈ inputRegions i s) {j : Nat}
    (hj : j < q.2) : word t (q.1 + j) = word s (q.1 + j) := by
  obtain ⟨-, -, -, -, hapart, -⟩ := hacc
  refine hmemory _ fun r hr => ?_
  have := hapart r hr q hq
  unfold Apart at this
  unfold Outside
  omega

/-- What an accepted `r2p` leaves: magnitude and phase of every pair of words in memory. -/
theorem exec_r2p {s : State} (hmem : Memory.wf Config.params s.mem = true)
    (hacc : Accepted .r2p s) :
    ∃ t, exec .r2p s = .next t ∧ OnlyResults s t ∧ OnlyOutputsWritten .r2p s t ∧ t.status = 0x01 ∧
      ∀ k, k < s.len.toNat →
        word t (s.dst0.toNat + k) = polarMagnitude Config.params (word s (s.src0.toNat + k))
          (word s (s.src1.toNat + k)) ∧
        word t (s.dst1.toNat + k) = polarPhase Config.params (word s (s.src0.toNat + k))
          (word s (s.src1.toNat + k)) := by
  obtain ⟨t, hexec, hframe, hmemory, hstatus, hmag, hphase⟩ := exec_two_outputs hmem hacc rfl rfl
  refine ⟨t, hexec, hframe, hmemory, hstatus.trans acceptedStatus_clear, fun k hk => ?_⟩
  rw [hmag k hk, hphase k hk, getD_map_range _ hk, getD_map_range _ hk,
    ← readSeq_getD_word s _ hk, ← readSeq_getD_word s _ hk]
  exact ⟨rfl, rfl⟩

/-- Settles O30: `r2p` has two outputs, and the three branches of the phase are its three cases. -/
theorem rectToPolarConvertsEveryPair : Obligations.RectToPolarConvertsEveryPair := by
  intro s hmem hacc
  obtain ⟨t, hexec, hframe, hmemory, hstatus, hwords⟩ := exec_r2p hmem hacc
  refine ⟨t, hexec, hframe, hmemory, hstatus, fun k hk => ?_⟩
  obtain ⟨hmag, hphase⟩ := hwords k hk
  have hkeep {q : Nat × Nat} (hq : q ∈ inputRegions .r2p s) :=
    word_input_unchanged hacc hmemory hq (j := k)
  refine ⟨hkeep List.mem_cons_self hk,
    hkeep (List.mem_cons_of_mem _ List.mem_cons_self) hk, hmag, ?_, ?_, ?_⟩
  · exact fun hr hm => hphase.trans (polarPhase_of_neg_neg hr hm)
  · exact fun hr hm => hphase.trans (polarPhase_of_neg_nonneg hr hm)
  · exact fun h => hphase.trans (polarPhase_uncorrected h)

/-! ### The sign of a magnitude (R181) -/

/-- A NaN, or a word with a clear sign bit: what squares, their sum and its root are. -/
def NanOrSignClear (a : Word) : Prop := isNaN a = true ∨ signOf a = false

section
variable (p : Params) {a b : Word}

theorem nanOrSignClear_square (a : Word) : NanOrSignClear (fmul p a a) := by
  unfold NanOrSignClear
  cases h : isNaN (fmul p a a)
  · exact .inr (by rw [signOf_fmul p h, bne_self_eq_false])
  · exact .inl rfl

theorem scaled_of_signOf_false (h : signOf a = false) : scaled a = magnitude a := by
  simp [scaled, h]

theorem nanOrSignClear_fadd (ha : NanOrSignClear a) (hb : NanOrSignClear b) :
    NanOrSignClear (fadd p a b) := by
  obtain ha | ha := ha
  · exact .inl (fadd_nan p (.inl ha))
  obtain hb | hb := hb
  · exact .inl (fadd_nan p (.inr hb))
  have hsum : ¬ scaled a + scaled b < 0 := by
    rw [scaled_of_signOf_false ha, scaled_of_signOf_false hb]
    omega
  unfold fadd
  split
  · exact .inl (isNaN_nanResult ..)
  split
  · split
    · exact .inl (isNaN_nanResult ..)
    · exact .inr ha
  split
  · exact .inr hb
  split
  · exact .inr (by rw [ha, hb]; decide)
  · exact .inr (by rw [signOf_pack_roundBits, decide_eq_false hsum])

theorem nanOrSignClear_fsqrt (ha : NanOrSignClear a) : NanOrSignClear (fsqrt p a) := by
  obtain ha | ha := ha
  · exact .inl (fsqrt_nan p ha)
  cases h0 : isZero a
  · obtain hk | hk | hk := kind_cases a
    · exact .inl (fsqrt_nan p hk)
    · exact .inr (by rw [fsqrt_inf p hk ha, ha])
    · obtain ⟨-, hsign, -⟩ := pack_sqrtBits_spec (magnitude_pos h0) (magnitude_lt_of_finite hk)
      exact .inr (by rw [fsqrt_finite p hk h0 ha, hsign])
  · exact .inr (by rw [fsqrt_zero p h0, ha])

theorem nanOrSignClear_polarMagnitude (r m : Word) : NanOrSignClear (polarMagnitude p r m) :=
  nanOrSignClear_fsqrt p
    (nanOrSignClear_fadd p (nanOrSignClear_square p r) (nanOrSignClear_square p m))

end

/-- Settles O36: squares, their sum and its root are not negative. -/
theorem magnitudeIsNeverNegative : Obligations.MagnitudeIsNeverNegative := by
  intro s t hmem hacc hexec k hk
  obtain ⟨t', hexec', -, -, -, hwords⟩ := exec_r2p hmem hacc
  obtain rfl : t' = t := by
    rw [hexec'] at hexec
    exact Host.Outcome.next.inj hexec
  obtain ⟨hmag, -⟩ := hwords k hk
  rw [hmag]
  exact nanOrSignClear_polarMagnitude _ _ _

/-! ### The real axis (R181) -/

/-- P-ZERO for a zero of either sign. -/
theorem PZero.fatan_zero {p : Params} (h : PZero p) {x : Word} (hx : isZero x = true) :
    p.fatan x = x := by
  obtain ⟨-, -, -, -, hpos, hneg⟩ := h
  rw [← pack_zero hx]
  cases signOf x
  · exact hpos
  · exact hneg

/-- On the real axis the base case is the zero with the quotient's sign. -/
theorem polarBase_of_zero {p : Params} (h : PZero p) {r m : Word} (hr : isNaN r = false)
    (hm : isZero m = true) : polarBase p r m = pack (signOf m != flt r ZERO) 0 := by
  rw [polarBase, fdiv_zero_left p hm (by rwa [isNaN_nonzeroReal]) (isZero_nonzeroReal r),
    signOf_nonzeroReal hr, h.fatan_zero (isZero_pack_zero _)]

/-- The phase of a real number that is not negative is the imaginary zero. -/
theorem polarPhase_nonneg_real {p : Params} (h : PZero p) {r m : Word} (hn : isNaN r = false)
    (hr : flt r ZERO = false) (hm : isZero m = true) : polarPhase p r m = m := by
  rw [polarPhase_uncorrected (.inl hr), polarBase_of_zero h hn hm, hr, Bool.bne_false, pack_zero hm]

theorem polarPhase_negative_real {p : Params} (h : PZero p) {r m : Word} (hr : flt r ZERO = true)
    (hm : isZero m = true) : polarPhase p r m = PI := by
  have hge : fge m ZERO = true := by
    rw [fge_ZERO (not_nan_of_zero hm), flt_ZERO (not_nan_of_zero hm), hm]
    simp
  rw [polarPhase_of_neg_nonneg hr hge, polarBase_of_zero h (not_nan_of_flt hr).1 hm]
  exact fadd_zero_left p (by decide) (by decide) (isZero_pack_zero _)

/-- The square of a zero of either sign is +0. -/
theorem fmul_self_zero (p : Params) {a : Word} (h : isZero a = true) : fmul p a a = ZERO := by
  rw [fmul_zero_left p h (finite_of_zero h), bne_self_eq_false]
  rfl

/-- Settles O44: a zero quotient has a zero arctangent, and PI is added for a negative real part
only. -/
theorem phaseOnTheRealAxis : Obligations.PhaseOnTheRealAxis := by
  intro p r m hzero hm
  refine ⟨fun hr => polarPhase_negative_real hzero hr hm, fun hr => ?_, fun hr => ⟨?_, ?_⟩⟩
  · obtain ⟨-, hn⟩ := not_nan_of_flt hr
    refine polarPhase_nonneg_real hzero hn ?_ hm
    obtain ⟨hlt, -, -⟩ := compare_values (a := ZERO) (by decide) hn
    obtain ⟨hlt', -, -⟩ := compare_values hn (b := ZERO) (by decide)
    rw [hlt, decide_eq_true_eq] at hr
    rw [hlt', decide_eq_false hr.not_gt]
  · have hn := not_nan_of_zero hr
    exact polarPhase_nonneg_real hzero hn (by rw [flt_ZERO hn, hr]; simp) hm
  · rw [polarMagnitude, fmul_self_zero p hr, fmul_self_zero p hm,
      fadd_ZERO_zero p (by decide), fsqrt_zero p (by decide)]

/-! ### A NaN in either part (R181) -/

/-- Settles O46: the square of the NaN and the quotient are NaNs, and so is all that is made of
them. -/
theorem nanPairGivesNanPolar : Obligations.NanPairGivesNanPolar := by
  rintro p r m ⟨hnan, -⟩ h
  constructor
  · exact fsqrt_nan p (fadd_nan p (h.imp (fun hr => fmul_nan p (.inl hr))
      (fun hm => fmul_nan p (.inl hm))))
  · have hquotient : isNaN (fdiv p m (nonzeroReal r)) = true :=
      fdiv_nan p (h.symm.imp_right fun hr => by rwa [isNaN_nonzeroReal])
    obtain ⟨-, -, hbase⟩ := hnan _ hquotient
    exact isNaN_polarPhase hbase

/-! ### An infinite quotient (R181) -/

/-- P-ATANINF for an infinity of either sign. -/
theorem PAtanInf.fatan_inf {p : Params} (h : PAtanInf p) {x : Word} (hx : isInf x = true) :
    p.fatan x = if signOf x then fneg HALF_PI else HALF_PI := by
  obtain ⟨hpos, hneg⟩ := h
  rw [← pack_inf hx]
  cases signOf x
  · exact hpos
  · exact hneg

/-- The correction of half of PI by PI is exact. -/
theorem fadd_HALF_PI_correction (p : Params) (s : Bool) :
    fadd p (if !s then fneg HALF_PI else HALF_PI) (if s then fneg PI else PI) =
      if s then fneg HALF_PI else HALF_PI := by
  cases s
  all_goals
    rw [fadd_finite p (by decide) (by decide) (by decide +kernel)]
    decide +kernel

/-- Settles O47: the arctangent is half of PI with the quotient's sign, which the correction by PI
turns into the imaginary part's for a negative real part. -/
theorem infiniteQuotientGivesHalfPi : Obligations.InfiniteQuotientGivesHalfPi := by
  intro p r m hinf hquotient
  change isInf (fdiv p m (nonzeroReal r)) = true at hquotient
  obtain ⟨hr, hm, hsign⟩ := quotient_spec (not_nan_of_inf hquotient)
  have hbase : polarBase p r m =
      if (signOf m != flt r ZERO) then fneg HALF_PI else HALF_PI := by
    rw [polarBase, hinf.fatan_inf hquotient, hsign]
  cases hneg : flt r ZERO
  · rw [polarPhase_uncorrected (.inl hneg), hbase, hneg, Bool.bne_false]
  · have h0 : isZero m = false := by
      rw [← Bool.not_eq_true]
      intro h0
      rw [fdiv_zero_left p h0 (by rwa [isNaN_nonzeroReal]) (isZero_nonzeroReal r)] at hquotient
      exact absurd (not_zero_of_inf hquotient) (by rw [isZero_pack_zero]; decide)
    rw [polarPhase_corrected hneg hm h0, hbase, hneg, Bool.bne_true, fadd_HALF_PI_correction]

/-! ### The bound on the phase (R181) -/

/-- Between the negative and the positive of a word lie the words of at most its magnitude. -/
theorem fge_fneg_and_fge_iff {x c : Word} (hc : isNaN c = false) (hs : signOf c = false) :
    fge x (fneg c) = true ∧ fge c x = true ↔ isNaN x = false ∧ magnitude x ≤ magnitude c := by
  cases hx : isNaN x
  · obtain ⟨-, hlow, -⟩ := compare_values hx (b := fneg c) (by rwa [isNaN_fneg])
    obtain ⟨-, hhigh, -⟩ := compare_values hc hx
    have habs := scaled_natAbs x
    rw [hlow, hhigh, decide_eq_true_eq, decide_eq_true_eq, scaled_fneg, scaled_of_signOf_false hs,
      and_iff_right rfl]
    omega
  · obtain ⟨-, hlow, -⟩ := compare_nan (b := fneg c) (.inl hx)
    simp [hlow]

/-- A word of at most the magnitude of a finite one is finite. -/
theorem isFinite_of_magnitude_le {x c : Word} (hx : isNaN x = false) (hc : isFinite c = true)
    (h : magnitude x ≤ magnitude c) : isFinite x = true := by
  obtain hk | hk | hk := kind_cases x
  · simp [hk] at hx
  · rw [magnitude_inf hk] at h
    exact absurd (magnitude_lt_of_finite hc) h.not_gt
  · exact hk

/-- A finite word lies below the overflow, as it is the rounding of its own value. -/
theorem magnitude_lt_overflow {c : Word} (hc : isFinite c = true) :
    magnitude c < (2 ^ 54 - 1) * 2 ^ 2044 * 1 := by
  obtain ⟨-, hinf, -⟩ := nearestEven_pack_roundBits (magnitude c) Nat.one_pos (signOf c)
  rw [pack_round_self hc, not_inf_of_finite hc] at hinf
  exact Nat.not_le.mp fun h => Bool.false_ne_true (hinf.mpr h)

/-- Rounding does not pass a finite word: a result nearer to the exact value stays on its side. -/
theorem NearestEven.magnitude_le_of_le {n : Nat} {x c : Word} (hx : NearestEven n 1 x)
    (hc : Machine.isFinite c = true) (h : n ≤ magnitude c) : magnitude x ≤ magnitude c := by
  have hfin := hx.isFinite (h.trans_lt (magnitude_lt_overflow hc))
  obtain ⟨-, -, hnear⟩ := hx
  obtain ⟨hle, -⟩ := hnear hfin c hc
  omega

/-- The sum of finite words of opposite signs is no larger than the larger of them. -/
theorem fadd_opposite_le (p : Params) {a b : Word} (ha : isFinite a = true) (hb : isFinite b = true)
    (hs : signOf a = !signOf b) (h : magnitude a ≤ magnitude b) :
    isNaN (fadd p a b) = false ∧ magnitude (fadd p a b) ≤ magnitude b := by
  have hsum : (scaled a + scaled b).natAbs ≤ magnitude b := by
    unfold scaled
    rw [hs]
    cases signOf b <;> simp <;> omega
  by_cases h0 : scaled a + scaled b = 0
  · rw [fadd_finite_zero p ha hb h0, magnitude_eq_zero.mpr (isZero_pack_zero _)]
    exact ⟨not_nan_of_zero (isZero_pack_zero _), Nat.zero_le _⟩
  · have hnear := nearestEven_pack_roundBits (scaled a + scaled b).natAbs Nat.one_pos
      (decide (scaled a + scaled b < 0))
    rw [fadd_finite p ha hb h0]
    exact ⟨isNaN_pack_round _ _ _, hnear.magnitude_le_of_le hb hsum⟩

/-- The correction by PI keeps the phase within PI: a base case within half of PI has the opposite
sign. -/
theorem corrected_within_PI (p : Params) {a : Word} (s : Bool) (hn : isNaN a = false)
    (ha : magnitude a ≤ magnitude PI) (hs : signOf a = !s) :
    isNaN (fadd p a (if s then fneg PI else PI)) = false ∧
      magnitude (fadd p a (if s then fneg PI else PI)) ≤ magnitude PI := by
  have hfin := isFinite_of_magnitude_le hn (by decide) ha
  have hmag : magnitude (if s then fneg PI else PI) = magnitude PI := by
    cases s
    · rfl
    · exact magnitude_fneg PI
  have hcorrection : isFinite (if s then fneg PI else PI) = true ∧
      signOf (if s then fneg PI else PI) = s := by
    cases s <;> decide
  obtain ⟨hfinC, hsignC⟩ := hcorrection
  have := fadd_opposite_le p hfin hfinC (by rw [hsignC, hs]) (ha.trans_eq hmag.symm)
  rwa [hmag] at this

/-- Settles O45: the base case lies within half of PI and has the quotient's sign by P-RANGE and
P-SIGN, the correction has the opposite one, and on the real axis the phase is PI. -/
theorem phaseStaysWithinPi : Obligations.PhaseStaysWithinPi := by
  rintro p r m hzero ⟨hnan, -⟩ ⟨-, hrange⟩ hsign hphase
  rw [fge_fneg_and_fge_iff (by decide) (by decide)]
  have hquotient : isNaN (fdiv p m (nonzeroReal r)) = false := by
    rw [← Bool.not_eq_true]
    intro h
    obtain ⟨-, -, hbase⟩ := hnan _ h
    exact absurd (hphase.symm.trans (isNaN_polarPhase hbase)) Bool.false_ne_true
  obtain ⟨-, hm, hquadrant⟩ := quotient_spec hquotient
  obtain ⟨hn, hs⟩ := hsign _ hquotient
  obtain ⟨-, hhalf⟩ := (fge_fneg_and_fge_iff (by decide) (by decide)).mp (hrange _ hquotient)
  have hle : magnitude (polarBase p r m) ≤ magnitude PI := hhalf.trans (by decide +kernel)
  cases hr : flt r ZERO
  · rw [polarPhase_uncorrected (.inl hr)]
    exact ⟨hn, hle⟩
  cases h0 : isZero m
  · rw [polarPhase_corrected hr hm h0]
    have hopposite : signOf (polarBase p r m) = !signOf m := by
      rw [polarBase, hs, hquadrant, hr, Bool.bne_true]
    exact corrected_within_PI p (signOf m) hn hle hopposite
  · rw [polarPhase_negative_real hzero hr h0]
    exact ⟨by decide, le_rfl⟩

end Sys2Proof.Machine
end

section
/-! The FIR filter synthesizer: the rejections of bad cutoffs, the kernels an accepted `lpf`, `hpf` and
`bpf` write, the spectral-inversion identity, and the symmetry of a low-pass kernel
(46_fir_synth.md). -/

namespace Sys2Proof.Machine

/-! ### The cutoff checks (R191) -/

/-- The length check of a filter passes for a positive length (R101). -/
theorem lengthOk_of_filter {i : Instr} {s : State} (h : IsSingleCutoff i ∨ IsBandPass i)
    (hpos : 0 < s.len.toNat) : LengthOk i s := by
  have htransform : ¬ IsTransform i := by
    rintro (rfl | rfl | rfl) <;> simp [IsSingleCutoff, IsBandPass] at h
  exact ⟨fun ht => absurd ht htransform, fun _ => hpos⟩

/-- Settles O22: the ratio test and then the order test, the length check having passed. -/
theorem badCutoffsAreRejected : Obligations.BadCutoffsAreRejected := by
  refine ⟨fun i s hsingle hpos hratio => ?_, fun i s hband hpos hratio => ?_,
    fun i s hband hpos hlower hupper horder => ?_⟩
  · have hbad : ¬ RatiosOk i s := fun ⟨h, _⟩ => hratio (h hsingle)
    exact exec_of_not_ratiosOk (lengthOk_of_filter (.inl hsingle) hpos) hbad
  · have hbad : ¬ RatiosOk i s := fun ⟨_, h⟩ =>
      hratio.elim (· (h hband).1) (· (h hband).2)
    exact exec_of_not_ratiosOk (lengthOk_of_filter (.inr hband) hpos) hbad
  · have hsingle : ¬ IsSingleCutoff i := by
      obtain rfl | rfl | rfl := hband <;> simp [IsSingleCutoff]
    have hgood : RatiosOk i s := ⟨fun h => absurd h hsingle, fun _ => ⟨hlower, hupper⟩⟩
    have hbad : ¬ OrderOk i s := fun h => Bool.false_ne_true (horder.symm.trans (h hband))
    exact exec_of_not_orderOk (lengthOk_of_filter (.inr hband) hpos) hgood hbad

/-! ### The taps of the kernels (R190, R192, R195) -/

/-- The factor of a tap away from the centre: the sine of the offset's angle over the offset
(R190). -/
def sincFactor (p : Params) (c : Word) (off : Int) : Word :=
  fdiv p (p.fsin (fmul p (fmul p TWO_PI c) (i2f off))) (i2f off)

section
variable (p : Params) (c : Word) (m : Nat) (w : WSel) (tab : List Word)

theorem lowPassTap_centre : lowPassTap p c m w tab (m / 2) = fmul p TWO_PI c :=
  if_pos (Int.sub_self _)

theorem lowPassTap_of_ne_centre {i : Nat} (h : i ≠ m / 2) :
    lowPassTap p c m w tab i =
      fmul p (sincFactor p c ((i : Int) - ((m / 2 : Nat) : Int))) (windowWeight p w i m tab) :=
  if_neg (by omega)

theorem lowPassKernel_getD {j : Nat} (hj : j < m) (d : Word) :
    (lowPassKernel p c m w tab).getD j d = lowPassTap p c m w tab j :=
  getD_map_range _ hj d

end

/-- A tap of the model is that of the statements, when the window's weights are. -/
theorem lowPassTap_eq_lowPassValue {w : WSel} {s : State} {m j : Nat} {tab : List Word}
    (hweight : windowWeight Config.params w j m tab = weight w s j m) (c : Word) :
    lowPassTap Config.params c m w tab j = lowPassValue w s c m j := by
  unfold lowPassValue
  split
  · next hj => rw [hj, lowPassTap_centre]
  · next hj =>
    rw [lowPassTap_of_ne_centre _ _ _ _ _ hj, hweight]
    rfl

/-- Spectral inversion tap by tap. -/
theorem spectralInvert_getD (h : List Word) (m : Nat) {j : Nat} (hj : j < h.length) (d : Word) :
    (spectralInvert Config.params h m).getD j d = invertedValue m j (h.getD j d) := by
  simp only [spectralInvert, invertedValue, List.getD_eq_getElem?_getD, List.getElem?_modify,
    List.getElem?_map, List.getElem?_eq_getElem hj, eq_comm (a := j)]
  split <;> rfl

theorem getD_zipWith (f : Word → Word → Word) {l l' : List Word} {j : Nat} (hl : j < l.length)
    (hl' : j < l'.length) (d : Word) :
    (List.zipWith f l l').getD j d = f (l.getD j d) (l'.getD j d) := by
  simp [List.getD, hl, hl']

/-- The band-pass steps of R195 tap by tap. -/
theorem bandPassKernel_getD (cl cu : Word) (w : WSel) (tab : List Word) {m j : Nat} (hj : j < m)
    (d : Word) :
    (bandPassKernel Config.params cl cu m w tab).getD j d =
      invertedValue m j (fadd Config.params (lowPassTap Config.params cl m w tab j)
        (invertedValue m j (lowPassTap Config.params cu m w tab j))) := by
  rw [bandPassKernel, spectralInvert_getD _ _ (by simpa using hj),
    getD_zipWith _ (by simpa) (by simpa), spectralInvert_getD _ _ (by simpa using hj),
    lowPassKernel_getD _ _ _ _ _ hj, lowPassKernel_getD _ _ _ _ _ hj]

/-! ### An accepted filter command (R193 to R195) -/

/-- The window table a filter reads: the caller's for the custom window, none for the built-in
ones (R143). -/
def filterTable (w : WSel) (s : State) : List Word :=
  (readInputs Config.params s (filterOperands w s)).getD 0 []

/-- The table a filter reads holds the weights of its window. -/
theorem windowWeight_filterTable (w : WSel) (s : State) {j : Nat} (hj : j < s.len.toNat) :
    windowWeight Config.params w j s.len.toNat (filterTable w s) = weight w s j s.len.toNat := by
  cases w with
  | hamming => rfl
  | blackman => rfl
  | custom => exact readSeq_getD_word s s.wtab.toNat hj

/-- A tap of a filter's low-pass kernel, with the window from memory. -/
theorem lowPassTap_filterTable (w : WSel) (s : State) (c : Word) {j : Nat} (hj : j < s.len.toNat) :
    lowPassTap Config.params c s.len.toNat w (filterTable w s) j =
      lowPassValue w s c s.len.toNat j :=
  lowPassTap_eq_lowPassValue (windowWeight_filterTable w s hj) c

/-- A command's row of the tables is that of a filter with the window `w`, which makes `kernel` of
the window table. -/
structure FilterRow (i : Instr) (w : WSel) (s : State) (kernel : List Word → List Word) : Prop where
  operands : tableOperands i s = filterOperands w s
  region : outputRegions i s = [(s.dst0.toNat, s.len.toNat)]
  evenM : tableEvenM i s = isEven s.len.toNat
  outputs : ∀ ins, tableOutputs i s ins = [kernel (ins.getD 0 [])]

/-- What an accepted filter leaves: the taps of its kernel, EVENM, and nothing else. -/
theorem FilterRow.exec {i : Instr} {w : WSel} {s : State} {kernel : List Word → List Word}
    (hrow : FilterRow i w s kernel) (hmem : Memory.wf Config.params s.mem = true)
    (hacc : Accepted i s) {value : Nat → Word}
    (hvalue : ∀ j, j < s.len.toNat → (kernel (filterTable w s)).getD j ZERO = value j) :
    ∃ t, Machine.exec i s = .next t ∧ OnlyResults s t ∧ OnlyOutputsWritten i s t ∧
      t.status = filterStatus s ∧
      ∀ j, j < s.len.toNat → word t (s.dst0.toNat + j) = value j := by
  obtain ⟨t, hexec, hframe, hmemory, hstatus, hwords⟩ :=
    exec_one_output hmem hacc hrow.region (hrow.outputs _)
  rw [hrow.operands] at hwords
  refine ⟨t, hexec, hframe, hmemory, ?_, fun j hj => (hwords j hj).trans (hvalue j hj)⟩
  rw [hstatus, hrow.evenM, acceptedStatus_isEven]

/-- Settles O31: `lpf` stores the low-pass kernel. -/
theorem lpfWritesTheLowPassKernel : Obligations.LpfWritesTheLowPassKernel := by
  intro i w s hiw hmem hacc
  have hrow : FilterRow i w s (lowPassKernel Config.params
      (cutoffRatio Config.params s.fc0 s.fs) s.len.toNat w) := by
    obtain ⟨rfl, rfl⟩ | ⟨rfl, rfl⟩ | ⟨rfl, rfl⟩ := hiw <;> exact ⟨rfl, rfl, rfl, fun _ => rfl⟩
  refine hrow.exec hmem hacc fun j hj => ?_
  rw [lowPassKernel_getD _ _ _ _ _ hj, lowPassTap_filterTable w s _ hj, cutoffRatio]

/-- Settles O32: `hpf` stores the inversion of the low-pass kernel. -/
theorem hpfWritesTheInvertedKernel : Obligations.HpfWritesTheInvertedKernel := by
  intro i w s hiw hmem hacc
  have hrow : FilterRow i w s (fun tab => spectralInvert Config.params (lowPassKernel Config.params
      (cutoffRatio Config.params s.fc0 s.fs) s.len.toNat w tab) s.len.toNat) := by
    obtain ⟨rfl, rfl⟩ | ⟨rfl, rfl⟩ | ⟨rfl, rfl⟩ := hiw <;> exact ⟨rfl, rfl, rfl, fun _ => rfl⟩
  refine hrow.exec hmem hacc fun j hj => ?_
  rw [spectralInvert_getD _ _ (by simpa using hj), lowPassKernel_getD _ _ _ _ _ hj,
    lowPassTap_filterTable w s _ hj, cutoffRatio]

/-- Settles O33: `bpf` stores the band-pass kernel, made of two low-pass kernels with one window. -/
theorem bpfWritesTheBandPassKernel : Obligations.BpfWritesTheBandPassKernel := by
  intro i w s hiw hmem hacc
  have hrow : FilterRow i w s (bandPassKernel Config.params (cutoffRatio Config.params s.fc0 s.fs)
      (cutoffRatio Config.params s.fc1 s.fs) s.len.toNat w) := by
    obtain ⟨rfl, rfl⟩ | ⟨rfl, rfl⟩ | ⟨rfl, rfl⟩ := hiw <;> exact ⟨rfl, rfl, rfl, fun _ => rfl⟩
  refine hrow.exec hmem hacc fun j hj => ?_
  rw [bandPassKernel_getD _ _ _ _ hj, lowPassTap_filterTable w s _ hj,
    lowPassTap_filterTable w s _ hj, cutoffRatio, cutoffRatio]

/-! ### A ratio in range (R191) -/

/-- A ratio in range is finite and at most one half. -/
theorem ratio_in_range {c : Word} (hlow : flt ZERO c = true) (hhigh : flt c HALF = true) :
    isFinite c = true ∧ magnitude c ≤ magnitude HALF := by
  obtain ⟨hn, -⟩ := not_nan_of_flt hhigh
  obtain ⟨hltLow, -, -⟩ := compare_values (a := ZERO) (by decide) hn
  obtain ⟨hltHigh, -, -⟩ := compare_values hn (b := HALF) (by decide)
  rw [hltLow, decide_eq_true_eq, show scaled ZERO = 0 by decide] at hlow
  rw [hltHigh, decide_eq_true_eq] at hhigh
  have hle : magnitude c ≤ magnitude HALF := by
    rw [← scaled_natAbs, ← scaled_natAbs]
    omega
  exact ⟨isFinite_of_magnitude_le hn (by decide) hle, hle⟩

/-- The centre tap of a ratio in range is finite, and not above 2π. -/
theorem centreTap_bound (p : Params) {c : Word} (hlow : flt ZERO c = true)
    (hhigh : flt c HALF = true) :
    isFinite (fmul p TWO_PI c) = true ∧ magnitude (fmul p TWO_PI c) ≤ magnitude TWO_PI := by
  obtain ⟨hfin, hle⟩ := ratio_in_range hlow hhigh
  have hhalf : 2 * magnitude HALF = 2 ^ 1074 := by decide +kernel
  have hdouble : 2 * (magnitude TWO_PI * magnitude c) ≤ magnitude TWO_PI * 2 ^ 1074 := by
    rw [Nat.mul_left_comm, ← hhalf]
    exact Nat.mul_le_mul_left _ (Nat.mul_le_mul_left 2 hle)
  have hsmall : magnitude TWO_PI < (2 ^ 54 - 1) * 2 ^ 2044 := by decide +kernel
  have hprod : isFinite (fmul p TWO_PI c) = true := by
    refine isFinite_fmul p (by decide) hfin ?_
    have := Nat.mul_lt_mul_of_pos_right hsmall unit_pos
    generalize (2 ^ 54 - 1) * 2 ^ 2044 * 2 ^ 1074 = overflow at *
    omega
  have hnear := nearestEven_pack_roundBits (magnitude TWO_PI * magnitude c) unit_pos
    (signOf TWO_PI != signOf c)
  rw [← fmul_finite p (by decide) hfin] at hnear
  exact ⟨hprod, Nat.le_of_mul_le_mul_right ((hnear.magnitude_le hprod).trans hdouble) unit_pos⟩

/-! ### The spectral-inversion identity (R196) -/

/-- A finite word and its negation add to +0. -/
theorem fadd_fneg_self (p : Params) {a : Word} (ha : isFinite a = true) :
    fadd p (fneg a) a = ZERO := by
  refine fadd_cancel p (by rwa [isFinite_fneg]) ha ?_ ?_
  · rw [scaled_fneg, Int.add_left_neg]
  · rw [signOf_fneg, Bool.not_and_self]

/-- With one window, `lpf` and `hpf` have the same checks and operands. -/
theorem accepted_hpf_of_lpf {lo hi : Instr} {s : State}
    (h : (lo = .lpf ∧ hi = .hpf) ∨ (lo = .lpfBlackman ∧ hi = .hpfBlackman) ∨
      (lo = .lpfCustom ∧ hi = .hpfCustom)) (hacc : Accepted lo s) : Accepted hi s := by
  rw [← firstFailure_none_iff_accepted] at hacc ⊢
  obtain ⟨rfl, rfl⟩ | ⟨rfl, rfl⟩ | ⟨rfl, rfl⟩ := h <;> exact hacc

/-- An accepted low-pass command has a positive length and a ratio in range. -/
theorem accepted_lpf {i : Instr} {s : State}
    (h : i = .lpf ∨ i = .lpfBlackman ∨ i = .lpfCustom) (hacc : Accepted i s) :
    0 < s.len.toNat ∧ RatioOk s.fc0 s.fs := by
  obtain ⟨⟨-, hpos⟩, ⟨hratio, -⟩, -⟩ := hacc
  obtain rfl | rfl | rfl := h <;>
    exact ⟨hpos (by simp [IsTransform]), hratio (by simp [IsSingleCutoff])⟩

/-- Settles O35: both commands compute one low-pass tap, and the centre tap is finite, so that its
sum with 1 does not depend on the order. -/
theorem spectralInversionIdentity : Obligations.SpectralInversionIdentity := by
  intro lo hi s tl th hpair hmem hacc hlo hhi
  obtain ⟨w, hlow, hhigh⟩ : ∃ w : WSel,
      ((lo = .lpf ∧ w = .hamming) ∨ (lo = .lpfBlackman ∧ w = .blackman) ∨
        (lo = .lpfCustom ∧ w = .custom)) ∧
      ((hi = .hpf ∧ w = .hamming) ∨ (hi = .hpfBlackman ∧ w = .blackman) ∨
        (hi = .hpfCustom ∧ w = .custom)) := by
    obtain ⟨rfl, rfl⟩ | ⟨rfl, rfl⟩ | ⟨rfl, rfl⟩ := hpair
    · exact ⟨.hamming, by simp⟩
    · exact ⟨.blackman, by simp⟩
    · exact ⟨.custom, by simp⟩
  obtain ⟨tl', hlo', -, -, -, hwordsLow⟩ := lpfWritesTheLowPassKernel lo w s hlow hmem hacc
  obtain ⟨th', hhi', -, -, -, hwordsHigh⟩ :=
    hpfWritesTheInvertedKernel hi w s hhigh hmem (accepted_hpf_of_lpf hpair hacc)
  cases hlo.symm.trans hlo'
  cases hhi.symm.trans hhi'
  refine ⟨fun j hj hne => ?_, ?_⟩
  · have htap : word th (s.dst0.toNat + j) = fneg (word tl (s.dst0.toNat + j)) := by
      rw [hwordsHigh j hj, hwordsLow j hj, invertedValue, if_neg hne]
    exact ⟨htap, fun hfin => by rw [htap, fadd_fneg_self _ hfin]⟩
  · obtain ⟨hpos, hratioLow, hratioHigh⟩ :=
      accepted_lpf (hlow.imp And.left (Or.imp And.left And.left)) hacc
    have hcentre : s.len.toNat / 2 < s.len.toNat := Nat.div_lt_self hpos (by decide)
    obtain ⟨hfin, -⟩ := centreTap_bound Config.params hratioLow hratioHigh
    rw [hwordsHigh _ hcentre, hwordsLow _ hcentre, invertedValue, lowPassValue, if_pos rfl,
      if_pos rfl]
    exact fadd_finite_comm _ (by rwa [isFinite_fneg]) (by decide)

/-! ### The symmetry of the low-pass kernel (R197) -/

section
variable (p : Params) {a b : Word} (ha : isFinite a = true) (hb : isFinite b = true)
include ha hb

theorem fmul_fneg_right : fmul p a (fneg b) = fneg (fmul p a b) := by
  rw [fmul_finite p ha (by rwa [isFinite_fneg]), fmul_finite p ha hb,
    fneg_pack _ (roundBits_lt _ _), signOf_fneg, magnitude_fneg, Bool.bne_not]

theorem fdiv_fneg_fneg (h0 : isZero b = false) : fdiv p (fneg a) (fneg b) = fdiv p a b := by
  rw [fdiv_finite p (by rwa [isFinite_fneg]) (by rwa [isFinite_fneg]) (by rwa [isZero_fneg]),
    fdiv_finite p ha hb h0]
  simp only [signOf_fneg, magnitude_fneg, Bool.not_bne_not]

end

/-- The word of a negative integer is the negation of its absolute value's (R116). -/
theorem i2f_neg {k : Nat} (hk : 0 < k) : i2f (-(k : Int)) = fneg (i2f k) := by
  rw [i2f, i2f, fneg_pack _ (roundBits_lt _ _), Int.natAbs_neg,
    decide_eq_true (by omega), decide_eq_false (by omega), Bool.not_false]

section
variable {p : Params} (hodd : POdd p) (hrange : PRange p) {c : Word} (hlow : flt ZERO c = true)
  (hhigh : flt c HALF = true)
include hodd hrange hlow hhigh

/-- The two negations cancel: the sine is odd, and it is divided by the offset. -/
theorem sincFactor_neg_natCast {k : Nat} (hpos : 0 < k) (hk : k ≤ 2 ^ 53) :
    sincFactor p c (-(k : Int)) = sincFactor p c k := by
  obtain ⟨hcentre, hbound⟩ := centreTap_bound p hlow hhigh
  obtain ⟨hfinK, -, h0⟩ := i2f_natCast hk
  have hbits := (magnitude_lt_two_pow TWO_PI).le
  obtain ⟨hangle, -⟩ := fmul_i2f_bound p hcentre (hbound.trans hbits) (by decide) hk
  obtain ⟨hsin, -⟩ := hrange.isFinite_fsin_fcos hangle
  obtain ⟨hneg, -⟩ := hodd _ (not_nan_of_finite hangle)
  rw [sincFactor, sincFactor, i2f_neg hpos, fmul_fneg_right p hcentre hfinK, hneg,
    fdiv_fneg_fneg p hsin hfinK (h0 hpos)]

theorem sincFactor_neg {off : Int} (hoff : off.natAbs ≤ 2 ^ 53) :
    sincFactor p c (-off) = sincFactor p c off := by
  obtain ⟨k, rfl | rfl⟩ := off.eq_nat_or_neg
  all_goals
    obtain rfl | hpos := k.eq_zero_or_pos
    · rfl
  · exact sincFactor_neg_natCast hodd hrange hlow hhigh hpos (by simpa using hoff)
  · rw [Int.neg_neg, sincFactor_neg_natCast hodd hrange hlow hhigh hpos (by simpa using hoff)]

end

/-- Settles O42: taps at opposite offsets have one sinc factor and, by the table's symmetry, one
weight. -/
theorem symmetricTableGivesSymmetricKernel : Obligations.SymmetricTableGivesSymmetricKernel := by
  intro p c m j tab hodd hrange hlow hhigh hmodd hm _ hj hsym
  rw [lowPassKernel_getD _ _ _ _ _ hj, lowPassKernel_getD _ _ _ _ _ (by omega)]
  by_cases hcentre : j = m / 2
  · rw [show m - 1 - j = j by omega]
  · have hoff : ((m - 1 - j : Nat) : Int) - ((m / 2 : Nat) : Int) =
        -((j : Int) - ((m / 2 : Nat) : Int)) := by omega
    rw [lowPassTap_of_ne_centre _ _ _ _ _ hcentre, lowPassTap_of_ne_centre _ _ _ _ _ (by omega),
      windowWeight_custom, windowWeight_custom, ← hsym j hj, hoff,
      sincFactor_neg hodd hrange hlow hhigh (by omega)]

end Sys2Proof.Machine
end

section
/-! Error entry: what a rejected write to CMD changes, and the STATUS words of the causes
(60_exceptions.md). -/

namespace Sys2Proof.Machine

/-- A word that does not decode goes to error entry with CMD already stored (R93, R97). -/
theorem commandStep_of_decode_error {w : Word} {c : Cause} (hdec : decode w = .error c) (s : State) :
    commandStep s w = .next (reject { s with cmd := w } c) := by
  simp [commandStep, issue, hdec]

/-- Every write to CMD ends in error entry or in a commit. -/
theorem commandStep_cases (s : State) (w : Word) :
    (∃ c, commandStep s w = .next (reject { s with cmd := w } c)) ∨
    (∃ o e outs, commandStep s w = .next (commit Config.params { s with cmd := w } o e outs)) := by
  cases hdec : decode w with
  | error c => exact .inl ⟨c, commandStep_of_decode_error hdec s⟩
  | ok i =>
    rw [commandStep_of_decode hdec]
    obtain ⟨c, hrej⟩ | ⟨o, e, outs, hcom, -⟩ := exec_cases i { s with cmd := w }
    · exact .inl ⟨c, hrej⟩
    · exact .inr ⟨o, e, outs, hcom⟩

/-- A write to CMD that leaves an error class went to error entry: a commit leaves class 0. -/
theorem commandStep_eq_reject {s t : State} {w : Word} (hstep : commandStep s w = .next t)
    (herr : statusEClass t.status ≠ 0) : ∃ c, t = reject { s with cmd := w } c := by
  obtain ⟨c, hrej⟩ | ⟨o, e, outs, hcom⟩ := commandStep_cases s w
  · rw [hrej, Host.Outcome.next.injEq] at hstep
    exact ⟨c, hstep.symm⟩
  · rw [hcom, Host.Outcome.next.injEq] at hstep
    subst hstep
    exact absurd (eclass_accepted e) herr

/-- R215: a rejection sets DONE, whatever the cause. -/
theorem statusDone_rejectedStatus (c : Cause) : statusDone (rejectedStatus c) = true := by
  cases c <;> decide

/-- R215: a rejection clears EVENM, whatever the cause. -/
theorem statusEvenM_rejectedStatus (c : Cause) : statusEvenM (rejectedStatus c) = false := by
  cases c <;> decide

/-- Settles O5: the step is the command step, which is error entry for a word that does not decode
and whenever it leaves an error class; the eleven words are evaluated. -/
theorem errorEntryWritesOnlyCmdAndStatus : Obligations.ErrorEntryWritesOnlyCmdAndStatus := by
  refine ⟨fun s w rest c hscript hdec => ?_, fun s t w rest hscript hstep herr => ?_, by decide⟩
  · rw [step_txn hscript, performTxn_cmdWrite, commandStep_of_decode_error hdec, reject]
  · rw [step_txn hscript, performTxn_cmdWrite] at hstep
    obtain ⟨c, rfl⟩ := commandStep_eq_reject hstep herr
    exact ⟨rfl, statusDone_rejectedStatus c, statusEvenM_rejectedStatus c, c, rfl⟩

end Sys2Proof.Machine
end
